-- ==== Sys2Proof/Word.lean ====
section
/-! DEFINITION. The word types of the machine (10_state.md, 00_scope.md rule R10). -/

namespace Sys2Proof

/-- A memory byte, a general register, a timer: 8 bits, unsigned (R13). -/
abbrev Byte := BitVec 8

/-- An instruction word, `pc`, `I`, a call-stack entry: 16 bits, unsigned (R13). -/
abbrev Word := BitVec 16

/-- A 4-bit unit (glossary, "Nibble"): a register index, a row count. -/
abbrev Nibble := BitVec 4

/-- The 12-bit address field of an instruction word (R61). -/
abbrev Addr12 := BitVec 12

/-- The display: 32 rows of 64 one-bit cells, column `c` of a row at bit `c` (R31; DESIGN CHOICE,
log 12). -/
abbrev Display := Vector (BitVec 64) 32

/-- The 80 bytes of a font table (R33). -/
abbrev Font := Vector Byte 80

end Sys2Proof
end

