-- ==== Sys2Proof/Syntax.lean ====
section
/-! DEFINITION. The instructions: one constructor per row of spec/opcode_table.json, in the order of
30_encoding.md rule R66, with the operand fields of rule R61. -/

namespace Sys2Proof

/-- The 35 opcodes (R66, R73). -/
inductive Instr where
  /-- 00E0 `CLS` (R115). -/
  | cls
  /-- 00EE `RET` (R92). -/
  | ret
  /-- 0nnn `SYS nnn` (R91). -/
  | sys (nnn : Addr12)
  /-- 1nnn `JP nnn` (R93). -/
  | jp (nnn : Addr12)
  /-- 2nnn `CALL nnn` (R95). -/
  | call (nnn : Addr12)
  /-- 3xnn `SE Vx, nn` (R96). -/
  | seImm (x : Nibble) (nn : Byte)
  /-- 4xnn `SNE Vx, nn` (R97). -/
  | sneImm (x : Nibble) (nn : Byte)
  /-- 5xy0 `SE Vx, Vy` (R98). -/
  | seReg (x y : Nibble)
  /-- 6xnn `LD Vx, nn` (R102). -/
  | ldImm (x : Nibble) (nn : Byte)
  /-- 7xnn `ADD Vx, nn` (R103). -/
  | addImm (x : Nibble) (nn : Byte)
  /-- 8xy0 `LD Vx, Vy` (R104). -/
  | ldReg (x y : Nibble)
  /-- 8xy1 `OR Vx, Vy` (R105). -/
  | or (x y : Nibble)
  /-- 8xy2 `AND Vx, Vy` (R106). -/
  | and (x y : Nibble)
  /-- 8xy3 `XOR Vx, Vy` (R107). -/
  | xor (x y : Nibble)
  /-- 8xy4 `ADD Vx, Vy` (R108). -/
  | addReg (x y : Nibble)
  /-- 8xy5 `SUB Vx, Vy` (R109). -/
  | sub (x y : Nibble)
  /-- 8xy6 `SHR Vx, Vy` (R110); the `y` field is encoded but not read. -/
  | shr (x y : Nibble)
  /-- 8xy7 `SUBN Vx, Vy` (R111). -/
  | subn (x y : Nibble)
  /-- 8xyE `SHL Vx, Vy` (R112); the `y` field is encoded but not read. -/
  | shl (x y : Nibble)
  /-- 9xy0 `SNE Vx, Vy` (R99). -/
  | sneReg (x y : Nibble)
  /-- Annn `LD I, nnn` (R127). -/
  | ldI (nnn : Addr12)
  /-- Bnnn `JP V0, nnn` (R94). -/
  | jpV0 (nnn : Addr12)
  /-- Cxnn `RND Vx, nn` (R113). -/
  | rnd (x : Nibble) (nn : Byte)
  /-- Dxyn `DRW Vx, Vy, n` (R116). -/
  | drw (x y n : Nibble)
  /-- Ex9E `SKP Vx` (R121). -/
  | skp (x : Nibble)
  /-- ExA1 `SKNP Vx` (R122). -/
  | sknp (x : Nibble)
  /-- Fx07 `LD Vx, DT` (R124). -/
  | ldDT (x : Nibble)
  /-- Fx0A `LD Vx, K` (R123). -/
  | ldKey (x : Nibble)
  /-- Fx15 `LD DT, Vx` (R125). -/
  | setDT (x : Nibble)
  /-- Fx18 `LD ST, Vx` (R126). -/
  | setST (x : Nibble)
  /-- Fx1E `ADD I, Vx` (R128). -/
  | addI (x : Nibble)
  /-- Fx29 `LD F, Vx` (R129). -/
  | ldF (x : Nibble)
  /-- Fx33 `LD B, Vx` (R130). -/
  | ldB (x : Nibble)
  /-- Fx55 `LD [I], Vx` (R132). -/
  | storeRegs (x : Nibble)
  /-- Fx65 `LD Vx, [I]` (R133). -/
  | loadRegs (x : Nibble)
  deriving DecidableEq, Repr

end Sys2Proof
end

