-- ==== Sys2Proof/WellFormed.lean ====
section
/-! DEFINITION. Which terms of `Instr` are instructions of the opcode map (30_encoding.md rule R66). -/

namespace Sys2Proof

/-- The 12-bit fields that row 3 of R66 excludes: the words 0x0000 (the sentinel), 0x00E0 (CLS) and
0x00EE (RET). -/
abbrev sysExcluded (nnn : Addr12) : Prop := nnn = 0x000 ∨ nnn = 0x0E0 ∨ nnn = 0x0EE

/-- A term is well formed when its word is in its own row of R66. Every field value of every row is
allowed but for SYS: "the word must also be none of 0x0000, 0x00E0 and 0x00EE". -/
def Instr.wellFormed : Instr → Bool
  | .sys nnn => !decide (sysExcluded nnn)
  | .cls | .ret | .jp _ | .call _ | .seImm _ _ | .sneImm _ _ | .seReg _ _ | .ldImm _ _
  | .addImm _ _ | .ldReg _ _ | .or _ _ | .and _ _ | .xor _ _ | .addReg _ _ | .sub _ _
  | .shr _ _ | .subn _ _ | .shl _ _ | .sneReg _ _ | .ldI _ | .jpV0 _ | .rnd _ _ | .drw _ _ _
  | .skp _ | .sknp _ | .ldDT _ | .ldKey _ | .setDT _ | .setST _ | .addI _ | .ldF _ | .ldB _
  | .storeRegs _ | .loadRegs _ => true

/-- `Instr.wellFormed` as a proposition. -/
abbrev Instr.WellFormed (i : Instr) : Prop := i.wellFormed = true

end Sys2Proof
end

