-- ==== Sys2Proof/Decode.lean ====
section
/-! DEFINITION. The opcode decoder and the encoder (30_encoding.md). -/

namespace Sys2Proof

/-- R61: `op = w[15:12]`, the family. -/
def fieldOp (w : Word) : Nibble := w.extractLsb' 12 4

/-- R61: `x = w[11:8]`, a register index. -/
def fieldX (w : Word) : Nibble := w.extractLsb' 8 4

/-- R61: `y = w[7:4]`, a register index. -/
def fieldY (w : Word) : Nibble := w.extractLsb' 4 4

/-- R61: `n = w[3:0]`, an immediate count or sub-opcode. -/
def fieldN (w : Word) : Nibble := w.extractLsb' 0 4

/-- R61: `nn = w[7:0]`, an immediate byte or sub-opcode. -/
def fieldNN (w : Word) : Byte := w.extractLsb' 0 8

/-- R61: `nnn = w[11:0]`, an address. -/
def fieldNNN (w : Word) : Addr12 := w.extractLsb' 0 12

/-- R67: family 0 is decided on the whole word, the exact words first. R65: 0x0000 is unknown. -/
def decodeFamily0 (w : Word) : Option Instr :=
  if w = 0x00E0 then some .cls
  else if w = 0x00EE then some .ret
  else if w = 0x0000 then none
  else some (.sys (fieldNNN w))

/-- R67, R68: family 8 is decided on the low nibble. -/
def decodeFamily8 (w : Word) : Option Instr :=
  let x := fieldX w
  let y := fieldY w
  let n := fieldN w
  if n = 0x0 then some (.ldReg x y)
  else if n = 0x1 then some (.or x y)
  else if n = 0x2 then some (.and x y)
  else if n = 0x3 then some (.xor x y)
  else if n = 0x4 then some (.addReg x y)
  else if n = 0x5 then some (.sub x y)
  else if n = 0x6 then some (.shr x y)
  else if n = 0x7 then some (.subn x y)
  else if n = 0xE then some (.shl x y)
  else none

/-- R67, R68: family E is decided on the low byte. -/
def decodeFamilyE (w : Word) : Option Instr :=
  let x := fieldX w
  let nn := fieldNN w
  if nn = 0x9E then some (.skp x)
  else if nn = 0xA1 then some (.sknp x)
  else none

/-- R67, R68: family F is decided on the low byte. -/
def decodeFamilyF (w : Word) : Option Instr :=
  let x := fieldX w
  let nn := fieldNN w
  if nn = 0x07 then some (.ldDT x)
  else if nn = 0x0A then some (.ldKey x)
  else if nn = 0x15 then some (.setDT x)
  else if nn = 0x18 then some (.setST x)
  else if nn = 0x1E then some (.addI x)
  else if nn = 0x29 then some (.ldF x)
  else if nn = 0x33 then some (.ldB x)
  else if nn = 0x55 then some (.storeRegs x)
  else if nn = 0x65 then some (.loadRegs x)
  else none

/-- R64, R67: the decoder, total on all 65536 words; `none` is `UnknownOpcode(w)`. The top nibble
selects the family; decoding is strict (R68). -/
def decodeWord (w : Word) : Option Instr :=
  if fieldOp w = 0x0 then decodeFamily0 w
  else if fieldOp w = 0x1 then some (.jp (fieldNNN w))
  else if fieldOp w = 0x2 then some (.call (fieldNNN w))
  else if fieldOp w = 0x3 then some (.seImm (fieldX w) (fieldNN w))
  else if fieldOp w = 0x4 then some (.sneImm (fieldX w) (fieldNN w))
  else if fieldOp w = 0x5 then
    if fieldN w = 0x0 then some (.seReg (fieldX w) (fieldY w)) else none
  else if fieldOp w = 0x6 then some (.ldImm (fieldX w) (fieldNN w))
  else if fieldOp w = 0x7 then some (.addImm (fieldX w) (fieldNN w))
  else if fieldOp w = 0x8 then decodeFamily8 w
  else if fieldOp w = 0x9 then
    if fieldN w = 0x0 then some (.sneReg (fieldX w) (fieldY w)) else none
  else if fieldOp w = 0xA then some (.ldI (fieldNNN w))
  else if fieldOp w = 0xB then some (.jpV0 (fieldNNN w))
  else if fieldOp w = 0xC then some (.rnd (fieldX w) (fieldNN w))
  else if fieldOp w = 0xD then some (.drw (fieldX w) (fieldY w) (fieldN w))
  else if fieldOp w = 0xE then decodeFamilyE w
  else decodeFamilyF w

/-- Why bytes are not an instruction. -/
inductive DecodeError where
  /-- Fewer than two bytes: every instruction is one 16-bit word (R60). -/
  | truncated
  /-- The word matches no row of R66: `UnknownOpcode(w)` (R64, R68). -/
  | unknownOpcode (w : Word)
  deriving DecidableEq, Repr

/-- R47: the first byte of an instruction is its high byte. -/
def wordOfBytes (hi lo : Byte) : Word := hi ++ lo

/-- The decoder on bytes: the instruction and the bytes after it, or a rejection by name. -/
def decodeBytes : List Byte → Except DecodeError (Instr × List Byte)
  | hi :: lo :: rest =>
    match decodeWord (wordOfBytes hi lo) with
    | some i => .ok (i, rest)
    | none => .error (.unknownOpcode (wordOfBytes hi lo))
  | [_] => .error .truncated
  | [] => .error .truncated

/-- The word of an instruction of the opcode table as it stands in memory: high byte, then low
byte (R47). `nbits` is the row's width; every bit above it is 0. -/
def tableWordBytes (nbits w : Nat) : List Byte :=
  let v := BitVec.ofNat 16 (w % 2 ^ nbits)
  [v.extractLsb' 8 8, v.extractLsb' 0 8]

/-- The instruction the decoder reads from the bytes of an opcode-table word. -/
def decodeTableWord (nbits w : Nat) : Option Instr :=
  match decodeBytes (tableWordBytes nbits w) with
  | .ok (i, _) => some i
  | .error _ => none

/-! ## The encoder, from the formats of rule R62 -/

/-- Format `A`: `oooo nnnn nnnn nnnn`. -/
def encA (op : Nibble) (nnn : Addr12) : Word := op ++ nnn

/-- Format `XNN`: `oooo xxxx nnnn nnnn`. -/
def encXNN (op x : Nibble) (nn : Byte) : Word := op ++ (x ++ nn : BitVec 12)

/-- Formats `XY` (the last nibble is the sub-opcode) and `XYN`: `oooo xxxx yyyy nnnn`. -/
def encXYN (op x y n : Nibble) : Word := op ++ (x ++ (y ++ n : BitVec 8) : BitVec 12)

/-- The word of an instruction (R62, R66, R76). -/
def encode : Instr → Word
  | .cls => 0x00E0
  | .ret => 0x00EE
  | .sys nnn => encA 0x0 nnn
  | .jp nnn => encA 0x1 nnn
  | .call nnn => encA 0x2 nnn
  | .seImm x nn => encXNN 0x3 x nn
  | .sneImm x nn => encXNN 0x4 x nn
  | .seReg x y => encXYN 0x5 x y 0x0
  | .ldImm x nn => encXNN 0x6 x nn
  | .addImm x nn => encXNN 0x7 x nn
  | .ldReg x y => encXYN 0x8 x y 0x0
  | .or x y => encXYN 0x8 x y 0x1
  | .and x y => encXYN 0x8 x y 0x2
  | .xor x y => encXYN 0x8 x y 0x3
  | .addReg x y => encXYN 0x8 x y 0x4
  | .sub x y => encXYN 0x8 x y 0x5
  | .shr x y => encXYN 0x8 x y 0x6
  | .subn x y => encXYN 0x8 x y 0x7
  | .shl x y => encXYN 0x8 x y 0xE
  | .sneReg x y => encXYN 0x9 x y 0x0
  | .ldI nnn => encA 0xA nnn
  | .jpV0 nnn => encA 0xB nnn
  | .rnd x nn => encXNN 0xC x nn
  | .drw x y n => encXYN 0xD x y n
  | .skp x => encXNN 0xE x 0x9E
  | .sknp x => encXNN 0xE x 0xA1
  | .ldDT x => encXNN 0xF x 0x07
  | .ldKey x => encXNN 0xF x 0x0A
  | .setDT x => encXNN 0xF x 0x15
  | .setST x => encXNN 0xF x 0x18
  | .addI x => encXNN 0xF x 0x1E
  | .ldF x => encXNN 0xF x 0x29
  | .ldB x => encXNN 0xF x 0x33
  | .storeRegs x => encXNN 0xF x 0x55
  | .loadRegs x => encXNN 0xF x 0x65

/-- The two bytes of an instruction in memory order (R47). -/
def encodeBytes (i : Instr) : List Byte :=
  [(encode i).extractLsb' 8 8, (encode i).extractLsb' 0 8]

/-! ## The opcode map of rule R66 as mask and match -/

/-- The mask of an instruction's row in R66. -/
def rowMask : Instr → Word
  | .cls | .ret => 0xFFFF
  | .sys _ | .jp _ | .call _ | .ldI _ | .jpV0 _ => 0xF000
  | .seImm _ _ | .sneImm _ _ | .ldImm _ _ | .addImm _ _ | .rnd _ _ | .drw _ _ _ => 0xF000
  | .seReg _ _ | .ldReg _ _ | .or _ _ | .and _ _ | .xor _ _ | .addReg _ _ | .sub _ _
  | .shr _ _ | .subn _ _ | .shl _ _ | .sneReg _ _ => 0xF00F
  | .skp _ | .sknp _ | .ldDT _ | .ldKey _ | .setDT _ | .setST _ | .addI _ | .ldF _ | .ldB _
  | .storeRegs _ | .loadRegs _ => 0xF0FF

/-- The match value of an instruction's row in R66. -/
def rowMatch : Instr → Word
  | .cls => 0x00E0
  | .ret => 0x00EE
  | .sys _ => 0x0000
  | .jp _ => 0x1000
  | .call _ => 0x2000
  | .seImm _ _ => 0x3000
  | .sneImm _ _ => 0x4000
  | .seReg _ _ => 0x5000
  | .ldImm _ _ => 0x6000
  | .addImm _ _ => 0x7000
  | .ldReg _ _ => 0x8000
  | .or _ _ => 0x8001
  | .and _ _ => 0x8002
  | .xor _ _ => 0x8003
  | .addReg _ _ => 0x8004
  | .sub _ _ => 0x8005
  | .shr _ _ => 0x8006
  | .subn _ _ => 0x8007
  | .shl _ _ => 0x800E
  | .sneReg _ _ => 0x9000
  | .ldI _ => 0xA000
  | .jpV0 _ => 0xB000
  | .rnd _ _ => 0xC000
  | .drw _ _ _ => 0xD000
  | .skp _ => 0xE09E
  | .sknp _ => 0xE0A1
  | .ldDT _ => 0xF007
  | .ldKey _ => 0xF00A
  | .setDT _ => 0xF015
  | .setST _ => 0xF018
  | .addI _ => 0xF01E
  | .ldF _ => 0xF029
  | .ldB _ => 0xF033
  | .storeRegs _ => 0xF055
  | .loadRegs _ => 0xF065

/-- The operand fields of an instruction, each at its place in the word (R61, R76). -/
def operandBits : Instr → Word
  | .cls | .ret => 0
  | .sys nnn | .jp nnn | .call nnn | .ldI nnn | .jpV0 nnn => nnn.setWidth 16
  | .seImm x nn | .sneImm x nn | .ldImm x nn | .addImm x nn | .rnd x nn =>
    x.setWidth 16 <<< 8 ||| nn.setWidth 16
  | .seReg x y | .ldReg x y | .or x y | .and x y | .xor x y | .addReg x y | .sub x y | .shr x y
  | .subn x y | .shl x y | .sneReg x y => x.setWidth 16 <<< 8 ||| y.setWidth 16 <<< 4
  | .drw x y n => x.setWidth 16 <<< 8 ||| y.setWidth 16 <<< 4 ||| n.setWidth 16
  | .skp x | .sknp x | .ldDT x | .ldKey x | .setDT x | .setST x | .addI x | .ldF x | .ldB x
  | .storeRegs x | .loadRegs x => x.setWidth 16 <<< 8

end Sys2Proof
end

