-- ==== Sys2Proof/Config.lean ====
section
/-! DEFINITION. The configuration parameters of 00_scope.md rule R11 and the free values of rule R16:
what is fixed for a run, and what the environment answers. -/

namespace Sys2Proof

/-- `P_INDEX_INC` (R131): how far Fx55 and Fx65 advance `I`. OPEN. -/
inductive IndexInc where
  /-- `I` is unchanged. -/
  | none
  /-- `I` advances by `x + 1`. -/
  | xPlus1
  /-- `I` advances by `x`. -/
  | x
  deriving DecidableEq, Repr, Inhabited

/-- `P_DRAW_VWRAP` (R117): where Dxyn puts a pixel whose cell index is 2048 or more. -/
inductive DrawVWrap where
  /-- The index modulo 64: the default, the source's literal text. -/
  | offsetMod64
  /-- The index modulo 2048. -/
  | offsetMod2048
  /-- The pixel is dropped. -/
  | clip
  deriving DecidableEq, Repr, Inhabited

/-- `P_SHIFT_VF` (R110, R112): the final `VF` of 8Fy6 and 8FyE. OPEN. -/
inductive ShiftVF where
  /-- The shift reads the captured operand. -/
  | operandCaptured
  /-- The shift reads the freshly written `VF`. -/
  | inPlace
  deriving DecidableEq, Repr, Inhabited

/-- `P_SYS` (R91): what 0nnn does. -/
inductive SysPolicy where
  /-- It halts as an unknown opcode: the default. -/
  | unknown
  /-- It does nothing. -/
  | nop
  deriving DecidableEq, Repr, Inhabited

/-- `P_KEY_OOB` (R120): a key index above 0xF. -/
inductive KeyOob where
  /-- Halt: the default. -/
  | fault
  /-- The key counts as not down; nothing is asked. -/
  | notDown
  /-- The low nibble is the key index. -/
  | lowNibble
  deriving DecidableEq, Repr, Inhabited

/-- `P_FONT_DIGIT` (R129): which digit Fx29 takes from `V[x]`. -/
inductive FontDigit where
  /-- All 8 bits: the default. -/
  | full
  /-- The low nibble. -/
  | lowNibble
  deriving DecidableEq, Repr, Inhabited

/-- `P_FONT_WRITE` (R45): a store into 0x000..0x04F. -/
inductive FontWrite where
  /-- Halt: the default. -/
  | fault
  /-- The byte is written. -/
  | write
  deriving DecidableEq, Repr, Inhabited

/-- `P_MEM_OOB` (R44): an access above 0xFFF. -/
inductive MemOob where
  /-- Halt: the default. -/
  | fault
  /-- The access goes to the address modulo 0x1000. -/
  | wrap12
  deriving DecidableEq, Repr, Inhabited

/-- The configuration parameters of R11, fixed for a run (R35). The machine's state carries them
unchanged (DESIGN CHOICE, log 2), so a statement about every state holds for every setting. -/
structure Params where
  indexInc  : IndexInc
  drawVWrap : DrawVWrap
  shiftVF   : ShiftVF
  sys       : SysPolicy
  keyOob    : KeyOob
  fontDigit : FontDigit
  fontWrite : FontWrite
  memOob    : MemOob
  font      : Font
  deriving DecidableEq, Repr

/-- `P_INDEX_INC` at reset: OPEN (R11, D14), so it has no body (log 3). -/
opaque Config.indexInc : IndexInc

/-- `P_SHIFT_VF` at reset: OPEN (R11, D16), so it has no body (log 3). -/
opaque Config.shiftVF : ShiftVF

/-- The keys down (bit `k` for key `k`) when the core makes its `n`-th environment draw. A free
value: no law links two draws (R16, R147, D32; logs 4 and 5). -/
opaque Config.keysDown : Nat → BitVec 16

/-- The random byte of the `n`-th environment draw. A free value (R16, R148, D22; log 4). -/
opaque Config.randByte : Nat → Byte

end Sys2Proof
end

