-- ==== Sys2Proof/Machine/Defaults.lean ====
section
/-! DEFINITION. The values the machine is constructed with: the parameters' defaults (00_scope.md rule
R11), the font table (10_state.md rule R33) and the reset values (10_state.md rule R38). -/

namespace Sys2Proof.Machine

/-- The default of `P_FONT`: the table of R33, one glyph a line (PRESUMED by the spec, D19; log 14). -/
def defaultFont : Font := #v[
  0xF0, 0x90, 0x90, 0x90, 0xF0,
  0x20, 0x60, 0x20, 0x20, 0x70,
  0xF0, 0x10, 0xF0, 0x80, 0xF0,
  0xF0, 0x10, 0xF0, 0x10, 0xF0,
  0x90, 0x90, 0xF0, 0x10, 0x10,
  0xF0, 0x80, 0xF0, 0x10, 0xF0,
  0xF0, 0x80, 0xF0, 0x90, 0xF0,
  0xF0, 0x10, 0x20, 0x40, 0x40,
  0xF0, 0x90, 0xF0, 0x90, 0xF0,
  0xF0, 0x90, 0xF0, 0x10, 0xF0,
  0xF0, 0x90, 0xF0, 0x90, 0x90,
  0xE0, 0x90, 0xE0, 0x90, 0xE0,
  0xF0, 0x80, 0x80, 0x80, 0xF0,
  0xE0, 0x90, 0x90, 0x90, 0xE0,
  0xF0, 0x80, 0xF0, 0x80, 0xF0,
  0xF0, 0x80, 0xF0, 0x80, 0x80]

/-- The defaults of R11 (log 7); the two OPEN parameters are free constants (log 3). -/
def defaultParams : Params where
  indexInc := Config.indexInc
  drawVWrap := .offsetMod64
  shiftVF := Config.shiftVF
  sys := .unknown
  keyOob := .fault
  fontDigit := .full
  fontWrite := .fault
  memOob := .fault
  font := defaultFont

/-- R38: `pc` starts at 0x200, the program load address. -/
def resetPc : Word := 0x200

/-- R38, D2: the general registers at reset (log 6). -/
def resetV : Vector Byte 16 := Vector.replicate 16 0

/-- R38, D2: the index register at reset (log 6). -/
def resetI : Word := 0

/-- R38, D2: the stack pointer at reset, the empty stack (log 6). -/
def resetSp : Nibble := 0

/-- R38, D2: the stack entries at reset (log 6). -/
def resetStack : Vector Word 16 := Vector.replicate 16 0

/-- R38, D2: the two timers at reset (log 6). -/
def resetTimer : Byte := 0

/-- R38, D2: the dark display (log 6). -/
def resetDisplay : Display := Vector.replicate 32 0

end Sys2Proof.Machine
end

