-- ==== Sys2Proof/Machine/State.lean ====
section
/-! DEFINITION. The machine's state (10_state.md), the halt results (60_exceptions.md rule R134), the
two ways a step could fail to answer a state, and the state after reset. -/

namespace Sys2Proof.Machine

/-- The `fault(…)` values of R134. -/
inductive FaultKind where
  /-- An access at `a > 0xFFF` under `P_MEM_OOB = fault`; raised by the fetch, Dxyn, Fx33, Fx55 and
  Fx65 (R44). `a` is the unreduced address (R43). Safe: the machine stops, as the spec says. -/
  | memoryOutOfRange (a : Nat)
  /-- A store to `a < 0x050` under `P_FONT_WRITE = fault`; raised by Fx33 and Fx55 (R45). Safe. -/
  | fontWrite (a : Nat)
  /-- A key index `v > 0xF` under `P_KEY_OOB = fault`; raised by Ex9E and ExA1 (R120). Safe. -/
  | keyIndexOutOfRange (v : Byte)
  deriving DecidableEq, Repr

/-- The halt results of R134: every step result but `continued`. An enumeration with payloads and no
numbers (R136). -/
inductive HaltResult where
  /-- The sentinel 0x0000 was fetched (R80). -/
  | haltedNormally
  /-- The word matches no row, or is SYS under `P_SYS = unknown` (R83, R91). -/
  | unknownOpcode (w : Word)
  /-- CALL with `sp = 15` (R95). -/
  | stackOverflow
  /-- RET with `sp = 0` (R92). -/
  | stackUnderflow
  /-- One of the spec's own fault results (R134). -/
  | fault (k : FaultKind)
  deriving DecidableEq, Repr

/-- The core's phase (R34). -/
inductive Phase where
  | running
  | halted (r : HaltResult)
  deriving DecidableEq, Repr

/-- The result a step returns to the host (R134, R150). -/
inductive StepResult where
  /-- The step reached its end (R85). -/
  | continued
  /-- The step ended in a halt. -/
  | halt (r : HaltResult)
  deriving DecidableEq, Repr

/-- Memory as data: the bytes that differ from what construction leaves (R42), by rising address.
What it reads as, and its canonical form, are in Machine/Ops.lean (log 13). -/
abbrev Memory := List Host.Cell

/-- The machine state (R38), with two fields of the model's own: `cfg` (log 2) and `draws` (log 4). -/
structure State where
  /-- The general registers `V0`..`VF`; `VF` is the flag register (R20, R21). -/
  V : Vector Byte 16
  /-- The index register (R23). -/
  I : Word
  /-- The program counter (R24). -/
  pc : Word
  /-- The stack pointer, 0..15 (R27). -/
  sp : Nibble
  /-- The call stack's 16 entries, slot 0 included (R27, R36). -/
  stack : Vector Word 16
  /-- The delay timer (R30). -/
  DT : Byte
  /-- The sound timer (R30). -/
  ST : Byte
  /-- The display (R31). -/
  disp : Display
  /-- The memory (R32). -/
  mem : Memory
  /-- The phase (R34). -/
  phase : Phase
  /-- The configuration parameters of the run (R11, R35). The model's own field. -/
  cfg : Params
  /-- How many environment draws have been made (R16). The model's own field. -/
  draws : Nat
  deriving DecidableEq, Repr

/-- Ways a step could end without a state. There are none: every halt and fault of R134 is a state
whose phase is `halted(r)` (R17, R34; log 1), so nothing raises one. Safe. -/
inductive Fault where
  deriving DecidableEq, Repr

/-- Refusals of a step. -/
inductive Refusal where
  /-- An instruction without a meaning in `exec`. Raised by no arm: every instruction is modelled.
  Safe. -/
  | notModelled (mnemonic : String)
  deriving DecidableEq, Repr

/-- What one step answers. -/
abbrev Outcome := Host.Outcome State Fault Refusal

/-- Construction (R155 to R157): the state of R38 under the parameters `cfg`, with no image loaded.
Memory lists nothing: an unlisted byte reads as the font below 0x050 and as 0 above. -/
def State.construct (cfg : Params) : State where
  V := resetV
  I := resetI
  pc := resetPc
  sp := resetSp
  stack := resetStack
  DT := resetTimer
  ST := resetTimer
  disp := resetDisplay
  mem := []
  phase := .running
  cfg := cfg
  draws := 0

/-- The machine right after reset: construction with the default parameters (R38, R157). The image a
host loads (R158) is not part of reset (log 10). -/
def State.reset : State := State.construct defaultParams

end Sys2Proof.Machine
end

