-- ==== Sys2Proof/Machine/Ops.lean ====
section
/-! DEFINITION. The operations over memory, registers, the stack, the display and the phase (00_scope.md
rules R14 to R17, 20_memory.md, 10_state.md). Halting, the machine's one exceptional event, is
`State.raise`; there is no return from it (60_exceptions.md rule R141). -/

namespace Sys2Proof.Machine

/-! ## Memory as data -/

/-- The byte construction leaves at `a` (R42, R156): the font at 0x000..0x04F, zero elsewhere. This is
what an address that memory does not list reads as. -/
def initialByte (font : Font) (a : Nat) : Byte := if h : a < 80 then font[a] else 0

/-- The byte memory holds at `a`. -/
def Memory.read (font : Font) : Memory → Nat → Byte
  | [], a => initialByte font a
  | (k, b) :: m, a => if a = k then b else Memory.read font m a

/-- Enter `b` at `a`, keeping the addresses rising. -/
def Memory.enter (a : Nat) (b : Byte) : Memory → Memory
  | [] => [(a, b)]
  | (k, c) :: m =>
    if a < k then (a, b) :: (k, c) :: m
    else if a = k then (a, b) :: m
    else (k, c) :: Memory.enter a b m

/-- Drop what is listed at `a`. -/
def Memory.drop (a : Nat) (m : Memory) : Memory := m.filter (fun c => c.1 != a)

/-- The memory that holds `b` at `a` and is otherwise `m`: a byte equal to the constructed one is not
listed. -/
def Memory.write (font : Font) (m : Memory) (a : Nat) (b : Byte) : Memory :=
  if b = initialByte font a then Memory.drop a m else Memory.enter a b m

/-- The canonical form: rising addresses of the 4096 (R39), and no byte equal to the constructed one. -/
abbrev Memory.wf (font : Font) (m : Memory) : Prop :=
  m.Pairwise (fun c d => c.1 < d.1) ∧ ∀ c ∈ m, c.1 < 0x1000 ∧ c.2 ≠ initialByte font c.1

/-! ## The memory arbiter: checks and accesses -/

/-- R44: the address an access goes to. Under `P_MEM_OOB = wrap_12` it is `a mod 0x1000`; an access
that passes the range check under `fault` is at `a` itself. -/
def effective (a : Nat) : Nat := a % 0x1000

/-- R44: the range check. -/
def checkRead (p : Params) (a : Nat) : Option HaltResult :=
  if 0xFFF < a ∧ p.memOob = .fault then some (.fault (.memoryOutOfRange a)) else none

/-- R44, then R45 on the address of R44: the checks of a write. -/
def checkWrite (p : Params) (a : Nat) : Option HaltResult :=
  match checkRead p a with
  | some r => some r
  | none =>
    if effective a < 0x050 ∧ p.fontWrite = .fault then some (.fault (.fontWrite (effective a)))
    else none

/-- R46, R139: `check` at `base`, `base + 1`, … for `n` addresses in turn; the first failure. -/
def firstFailure (check : Nat → Option HaltResult) (base : Nat) : Nat → Option HaltResult
  | 0 => none
  | n + 1 =>
    match check base with
    | some r => some r
    | none => firstFailure check (base + 1) n

/-- The byte memory holds at `a` (R51). -/
def State.byteAt (s : State) (a : Nat) : Byte := Memory.read s.cfg.font s.mem a

/-- R15 `MemRead(a, 1)` of a checked address. -/
def State.memRead (s : State) (a : Nat) : Byte := s.byteAt (effective a)

/-- R15 `MemWrite(a, 1, b)` of a checked address. -/
def State.memWrite (s : State) (a : Nat) (b : Byte) : State :=
  { s with mem := Memory.write s.cfg.font s.mem (effective a) b }

/-- `MemRead` at `base`, `base + 1`, … for `n` bytes. -/
def State.readBytes (s : State) (base : Nat) : Nat → List Byte
  | 0 => []
  | n + 1 => s.memRead base :: s.readBytes (base + 1) n

/-- `MemWrite` of the bytes at `base`, `base + 1`, … in turn. -/
def State.writeBytes (s : State) (base : Nat) : List Byte → State
  | [] => s
  | b :: bs => (s.memWrite base b).writeBytes (base + 1) bs

/-- R48, R79: the instruction fetch, `pc` and then `pc + 1` through the range check, high byte first
(R47). `pc + 1` is not reduced before the check (R43). -/
def State.fetch (s : State) : Except HaltResult Word :=
  match firstFailure (checkRead s.cfg) s.pc.toNat 2 with
  | some r => .error r
  | none => .ok (wordOfBytes (s.memRead s.pc.toNat) (s.memRead (s.pc.toNat + 1)))

/-! ## Registers -/

/-- R14: `V[x]`. -/
def State.reg (s : State) (x : Nibble) : Byte := s.V[x.toNat]

/-- R14: `V[x] <- b`. -/
def State.setReg (s : State) (x : Nibble) (b : Byte) : State := { s with V := s.V.set x.toNat b }

/-- R21: the index of `VF`. -/
def vf : Nibble := 0xF

/-- `VF <- b`. -/
def State.setVF (s : State) (b : Byte) : State := s.setReg vf b

/-- R14: `pc <- target`. -/
def State.setPc (s : State) (target : Word) : State := { s with pc := target }

/-- R25, R81: `pc <- trunc_16(pc + 2)`, the step's advance and a taken skip. -/
def State.advance (s : State) : State := s.setPc (s.pc + 2)

/-- R25, R123: `pc <- trunc_16(pc - 2)`, the key wait's rewind. -/
def State.rewind (s : State) : State := s.setPc (s.pc - 2)

/-- R96: the extra skip of a skip instruction. -/
def State.skipIf (s : State) (taken : Bool) : State := if taken then s.advance else s

/-- R14: `I <- a`. -/
def State.setI (s : State) (a : Word) : State := { s with I := a }

/-- R14: `DT <- b`. -/
def State.setDT (s : State) (b : Byte) : State := { s with DT := b }

/-- R14: `ST <- b`. -/
def State.setST (s : State) (b : Byte) : State := { s with ST := b }

/-! ## The call-stack controller -/

/-- The most recent return address, `stack[sp]` (R28). -/
def State.top (s : State) : Word := s.stack[s.sp.toNat]

/-- R95: `sp <- sp + 1`; `stack[sp] <- a`. -/
def State.push (s : State) (a : Word) : State :=
  { s with sp := s.sp + 1, stack := s.stack.set (s.sp + 1).toNat a }

/-- R92: `sp <- sp - 1`; the popped entry stays as it is (R36). -/
def State.pop (s : State) : State := { s with sp := s.sp - 1 }

/-! ## The display -/

/-- R14, R31: `disp[k]`, the cell at row `k / 64` and column `k mod 64`; there are 2048. -/
def cell (d : Display) (k : Nat) : Bool :=
  if h : k / 64 < 32 then (d[k / 64]).getLsbD (k % 64) else false

/-- `disp[k] <- disp[k] ^ 1`. -/
def flipCell (d : Display) (k : Nat) : Display :=
  if h : k / 64 < 32 then d.set (k / 64) (d[k / 64] ^^^ BitVec.twoPow 64 (k % 64)) else d

/-- R115: the display with every cell 0. -/
def darkDisplay : Display := Vector.replicate 32 0

/-- R14: every display cell at once. -/
def State.setDisp (s : State) (d : Display) : State := { s with disp := d }

/-! ## The phase -/

/-- R17: `raise Halt(r)`. It sets the phase and changes nothing else; the result goes to the host as
`State.result`. This is the whole of entering a halt (R140): nothing is saved and `pc` goes nowhere. -/
def State.raise (s : State) (r : HaltResult) : State := { s with phase := .halted r }

/-- The result of the step that led to this state (R134, R78): `continued` while the phase is
running, else the halt result. -/
def State.result (s : State) : StepResult :=
  match s.phase with
  | .running => .continued
  | .halted r => .halt r

/-! ## Environment draws -/

/-- R16: one more draw has been made, so that the next one is unrelated (D32). -/
def State.drawn (s : State) : State := { s with draws := s.draws + 1 }

end Sys2Proof.Machine
end

