-- ==== Sys2Proof/Machine/Flags.lean ====
section
/-! DEFINITION. The flag computations (10_state.md rule R21, 42_alu.md rules R108 to R114). A flag is
stored in `VF` as 0 or 1. -/

namespace Sys2Proof.Machine

/-- R21: a flag write always stores 0 or 1. -/
def flag (b : Bool) : Byte := if b then 1 else 0

/-- R108: carry, 1 iff the unsigned sum passes 255. -/
def carry (a b : Byte) : Byte := flag (decide (255 < a.toNat + b.toNat))

/-- R109, R111: no borrow in `a - b`, 1 iff `a ≥ b`. -/
def noBorrow (a b : Byte) : Byte := flag (decide (b.toNat ≤ a.toNat))

/-- R110: the bit a right shift shifts out. -/
def shiftedOutRight (a : Byte) : Byte := flag (a.getLsbD 0)

/-- R112: the bit a left shift shifts out. -/
def shiftedOutLeft (a : Byte) : Byte := flag (a.getLsbD 7)

/-- R114: the write order of ADD, SUB and SUBN: the result, then `VF`. With `x = 0xF` the flag wins. -/
def State.setResultThenFlag (s : State) (x : Nibble) (result flagByte : Byte) : State :=
  (s.setReg x result).setVF flagByte

/-- R110, R112, R114: the write order of the shifts: `VF`, then the result. The result is `shift` of
the captured operand; when `x = 0xF` under `P_SHIFT_VF = in_place` it is `shift` of the `VF` just
written. -/
def State.setFlagThenShift (s : State) (x : Nibble) (flagByte : Byte) (shift : Byte → Byte) : State :=
  let operand := if x = vf ∧ s.cfg.shiftVF = .inPlace then flagByte else s.reg x
  (s.setVF flagByte).setReg x (shift operand)

end Sys2Proof.Machine
end

