-- ==== Sys2Proof/Machine/Operands.lean ====
section
/-! DEFINITION. The operand forms (30_encoding.md rule R63): immediates, the implicit `V0`, the key index,
the key answers and the random byte. Register operands are `State.reg`. -/

namespace Sys2Proof.Machine

/-- R63: `zext_16(nnn)`, a 12-bit address written to `pc` or `I`. -/
def address (nnn : Addr12) : Word := nnn.setWidth 16

/-- R63: an 8-bit value as a 16-bit one, zero-extended (R13). -/
def zext16 (b : Byte) : Word := b.setWidth 16

/-- R94: the target of Bnnn, `zext_16(nnn) + V[0]`. -/
def State.jumpV0Target (s : State) (nnn : Addr12) : Word := address nnn + zext16 (s.reg 0x0)

/-- R120: what a key query asks. -/
inductive KeyQuery where
  /-- The index is out of range and the step halts. -/
  | halt (r : HaltResult)
  /-- The key counts as not down and nothing is asked. -/
  | notAsked
  /-- Is key `k` down? -/
  | ask (k : Nibble)
  deriving DecidableEq, Repr

/-- R120: the key index held in a register. -/
def keyIndex (p : Params) (v : Byte) : KeyQuery :=
  if v ≤ 0xF then .ask (v.setWidth 4)
  else
    match p.keyOob with
    | .fault => .halt (.fault (.keyIndexOutOfRange v))
    | .notDown => .notAsked
    | .lowNibble => .ask (v.setWidth 4)

/-- R147: `KeyDown(k)` among a set of keys. -/
def keyDown (keys : BitVec 16) (k : Nibble) : Bool := keys.getLsbD k.toNat

/-- R147: `LowestKeyDown()` among a set of keys: the lowest-indexed one, or none. -/
def lowestKey (keys : BitVec 16) : Option Nibble :=
  ((List.range 16).find? (fun k => keys.getLsbD k)).map (BitVec.ofNat 4)

/-- R147: the keys down at this step's query. -/
def State.keysDown (s : State) : BitVec 16 := Config.keysDown s.draws

/-- R148: `RandByte()` at this step. -/
def State.randByte (s : State) : Byte := Config.randByte s.draws

/-- R129: the digit Fx29 takes from a register. -/
def fontDigit (p : Params) (v : Byte) : Nat :=
  match p.fontDigit with
  | .full => v.toNat
  | .lowNibble => v.toNat % 16

/-- R130: the decimal digits of a byte: hundreds, tens, ones. -/
def bcdDigits (v : Byte) : List Byte :=
  [BitVec.ofNat 8 (v.toNat / 100), BitVec.ofNat 8 (v.toNat / 10 % 10), BitVec.ofNat 8 (v.toNat % 10)]

/-- R131: `I` after a block transfer whose last register is `x`. -/
def indexAfter (p : Params) (i : Word) (x : Nibble) : Word :=
  match p.indexInc with
  | .none => i
  | .xPlus1 => i + x.setWidth 16 + 1
  | .x => i + x.setWidth 16

end Sys2Proof.Machine
end

