-- ==== Sys2Proof/Machine/Alu.lean ====
section
/-! DEFINITION. Register loads and the 8-bit ALU (42_alu.md). Every result is modulo 256 (R101), which is
`BitVec 8` arithmetic. Operands are read before any write (R71). -/

namespace Sys2Proof.Machine

/-- LD Vx, nn (R102). -/
def execLdImm (x : Nibble) (nn : Byte) (s : State) : Outcome := .next (s.setReg x nn)

/-- ADD Vx, nn (R103). -/
def execAddImm (x : Nibble) (nn : Byte) (s : State) : Outcome := .next (s.setReg x (s.reg x + nn))

/-- LD Vx, Vy (R104). -/
def execLdReg (x y : Nibble) (s : State) : Outcome := .next (s.setReg x (s.reg y))

/-- OR Vx, Vy (R105). -/
def execOr (x y : Nibble) (s : State) : Outcome := .next (s.setReg x (s.reg x ||| s.reg y))

/-- AND Vx, Vy (R106). -/
def execAnd (x y : Nibble) (s : State) : Outcome := .next (s.setReg x (s.reg x &&& s.reg y))

/-- XOR Vx, Vy (R107). -/
def execXor (x y : Nibble) (s : State) : Outcome := .next (s.setReg x (s.reg x ^^^ s.reg y))

/-- ADD Vx, Vy (R108): the sum, then the carry. -/
def execAddReg (x y : Nibble) (s : State) : Outcome :=
  .next (s.setResultThenFlag x (s.reg x + s.reg y) (carry (s.reg x) (s.reg y)))

/-- SUB Vx, Vy (R109): `V[x] - V[y]`, then no-borrow. -/
def execSub (x y : Nibble) (s : State) : Outcome :=
  .next (s.setResultThenFlag x (s.reg x - s.reg y) (noBorrow (s.reg x) (s.reg y)))

/-- SUBN Vx, Vy (R111): `V[y] - V[x]`, then no-borrow. -/
def execSubn (x y : Nibble) (s : State) : Outcome :=
  .next (s.setResultThenFlag x (s.reg y - s.reg x) (noBorrow (s.reg y) (s.reg x)))

/-- SHR Vx (R110): `V[y]` takes no part. -/
def execShr (x _y : Nibble) (s : State) : Outcome :=
  .next (s.setFlagThenShift x (shiftedOutRight (s.reg x)) (fun a => a >>> 1))

/-- SHL Vx (R112): `V[y]` takes no part. -/
def execShl (x _y : Nibble) (s : State) : Outcome :=
  .next (s.setFlagThenShift x (shiftedOutLeft (s.reg x)) (fun a => a <<< 1))

/-- RND Vx, nn (R113): one draw each execution. -/
def execRnd (x : Nibble) (nn : Byte) (s : State) : Outcome :=
  .next (s.drawn.setReg x (s.randByte &&& nn))

end Sys2Proof.Machine
end

