-- ==== Sys2Proof/Machine/ControlFlow.lean ====
section
/-! DEFINITION. Control flow and the call stack (41_control_flow.md). In every meaning `s.pc` already
holds the instruction's address plus 2 (40_pipeline.md rule R81). -/

namespace Sys2Proof.Machine

/-- SYS nnn (R91): undecodable under `P_SYS = unknown`, nothing under `nop`. -/
def execSys (nnn : Addr12) (s : State) : Outcome :=
  match s.cfg.sys with
  | .unknown => .next (s.raise (.unknownOpcode (encode (.sys nnn))))
  | .nop => .next s

/-- RET (R92). -/
def execRet (s : State) : Outcome :=
  if s.sp = 0 then .next (s.raise .stackUnderflow) else .next (s.pop.setPc s.top)

/-- JP nnn (R93). -/
def execJp (nnn : Addr12) (s : State) : Outcome := .next (s.setPc (address nnn))

/-- JP V0, nnn (R94). -/
def execJpV0 (nnn : Addr12) (s : State) : Outcome := .next (s.setPc (s.jumpV0Target nnn))

/-- CALL nnn (R95): it pushes `pc`, the address of the next instruction. -/
def execCall (nnn : Addr12) (s : State) : Outcome :=
  if s.sp = 15 then .next (s.raise .stackOverflow)
  else .next ((s.push s.pc).setPc (address nnn))

/-- SE Vx, nn (R96). -/
def execSeImm (x : Nibble) (nn : Byte) (s : State) : Outcome := .next (s.skipIf (s.reg x = nn))

/-- SNE Vx, nn (R97). -/
def execSneImm (x : Nibble) (nn : Byte) (s : State) : Outcome := .next (s.skipIf (s.reg x ≠ nn))

/-- SE Vx, Vy (R98). -/
def execSeReg (x y : Nibble) (s : State) : Outcome := .next (s.skipIf (s.reg x = s.reg y))

/-- SNE Vx, Vy (R99). -/
def execSneReg (x y : Nibble) (s : State) : Outcome := .next (s.skipIf (s.reg x ≠ s.reg y))

end Sys2Proof.Machine
end

