-- ==== Sys2Proof/Machine/Display.lean ====
section
/-! DEFINITION. Display instructions and the sprite-collision detector (43_display.md). -/

namespace Sys2Proof.Machine

/-- R117: the display cell for sprite column `c` and sprite row `r`, or none where the pixel is
dropped. Horizontally it is clipped; vertically `P_DRAW_VWRAP` decides. -/
def pixelIndex (policy : DrawVWrap) (c r : Nat) : Option Nat :=
  if 63 < c then none
  else
    let k := r * 64 + c
    if k < 2048 then some k
    else
      match policy with
      | .offsetMod64 => some (k % 64)
      | .offsetMod2048 => some (k % 2048)
      | .clip => none

/-- A draw in progress: the display and whether a lit cell has gone dark (R118). -/
structure Drawing where
  disp : Display
  hit : Bool
  deriving DecidableEq, Repr

/-- R116: XOR one lit sprite bit onto its cell. -/
def plot (policy : DrawVWrap) (c r : Nat) (d : Drawing) : Drawing :=
  match pixelIndex policy c r with
  | none => d
  | some k => { disp := flipCell d.disp k, hit := d.hit || cell d.disp k }

/-- R116: the bits `b`, `b + 1`, … (`m` of them) of one sprite row, most significant bit first. -/
def drawBits (policy : DrawVWrap) (row : Byte) (cx r b : Nat) (d : Drawing) : Nat → Drawing
  | 0 => d
  | m + 1 =>
    drawBits policy row cx r (b + 1)
      (if row.getLsbD (7 - b) then plot policy (cx + b) r d else d) m

/-- R116: the sprite rows from row `r` of the display on. -/
def drawRows (policy : DrawVWrap) (cx r : Nat) (d : Drawing) : List Byte → Drawing
  | [] => d
  | row :: rows => drawRows policy cx (r + 1) (drawBits policy row cx r 0 d 8) rows

/-- R116: the start column of a draw. -/
def startColumn (v : Byte) : Nat := v.toNat % 64

/-- R116: the start row of a draw. -/
def startRow (v : Byte) : Nat := v.toNat % 32

/-- CLS (R115). -/
def execCls (s : State) : Outcome := .next (s.setDisp darkDisplay)

/-- DRW Vx, Vy, n (R116 to R119): every sprite address is checked first; `VF` is written once, last. -/
def execDrw (x y n : Nibble) (s : State) : Outcome :=
  match firstFailure (checkRead s.cfg) s.I.toNat n.toNat with
  | some r => .next (s.raise r)
  | none =>
    let d := drawRows s.cfg.drawVWrap (startColumn (s.reg x)) (startRow (s.reg y))
      { disp := s.disp, hit := false } (s.readBytes s.I.toNat n.toNat)
    .next ((s.setDisp d.disp).setVF (flag d.hit))

end Sys2Proof.Machine
end

