-- ==== Sys2Proof/Machine/IndexMemory.lean ====
section
/-! DEFINITION. Index register and memory-block instructions (45_index_memory.md). All of an
instruction's addresses are checked before its first effect (20_memory.md rule R46). -/

namespace Sys2Proof.Machine

/-- LD I, nnn (R127). -/
def execLdI (nnn : Addr12) (s : State) : Outcome := .next (s.setI (address nnn))

/-- ADD I, Vx (R128): no flag. -/
def execAddI (x : Nibble) (s : State) : Outcome := .next (s.setI (s.I + zext16 (s.reg x)))

/-- LD F, Vx (R129). -/
def execLdF (x : Nibble) (s : State) : Outcome :=
  .next (s.setI (BitVec.ofNat 16 (5 * fontDigit s.cfg (s.reg x))))

/-- Store `bytes` at `I`, `I + 1`, … once every address has passed its checks; `after` is what the
instruction does then. -/
def storeBlock (s : State) (bytes : List Byte) (after : State → State) : Outcome :=
  match firstFailure (checkWrite s.cfg) s.I.toNat bytes.length with
  | some r => .next (s.raise r)
  | none => .next (after (s.writeBytes s.I.toNat bytes))

/-- The registers `V[0]`..`V[x]`, in order. -/
def State.regsUpTo (s : State) (x : Nibble) : List Byte := s.V.toList.take (x.toNat + 1)

/-- `V[0]`, `V[1]`, … become the bytes (at most 16 of them). -/
def State.setRegsFrom (s : State) (k : Nat) : List Byte → State
  | [] => s
  | b :: bs => (s.setReg (BitVec.ofNat 4 k) b).setRegsFrom (k + 1) bs

/-- LD B, Vx (R130). -/
def execLdB (x : Nibble) (s : State) : Outcome := storeBlock s (bcdDigits (s.reg x)) id

/-- LD [I], Vx (R132); the index update is R131. -/
def execStoreRegs (x : Nibble) (s : State) : Outcome :=
  storeBlock s (s.regsUpTo x) (fun t => t.setI (indexAfter s.cfg s.I x))

/-- LD Vx, [I] (R133); the index update is R131 from the `I` captured at the start. -/
def execLoadRegs (x : Nibble) (s : State) : Outcome :=
  match firstFailure (checkRead s.cfg) s.I.toNat (x.toNat + 1) with
  | some r => .next (s.raise r)
  | none =>
    .next ((s.setRegsFrom 0 (s.readBytes s.I.toNat (x.toNat + 1))).setI (indexAfter s.cfg s.I x))

end Sys2Proof.Machine
end

