-- ==== Sys2Proof/Machine/KeysTimers.lean ====
section
/-! DEFINITION. Key queries and timer access (44_keys_timers.md). -/

namespace Sys2Proof.Machine

/-- The shared part of SKP and SKNP (R121, R122): ask, then skip when the answer is `wanted`. A key
that is not asked counts as not down (R120). -/
def skipOnKey (x : Nibble) (wanted : Bool) (s : State) : Outcome :=
  match keyIndex s.cfg (s.reg x) with
  | .halt r => .next (s.raise r)
  | .notAsked => .next (s.skipIf (false == wanted))
  | .ask k => .next (s.drawn.skipIf (keyDown s.keysDown k == wanted))

/-- SKP Vx (R121). -/
def execSkp (x : Nibble) (s : State) : Outcome := skipOnKey x true s

/-- SKNP Vx (R122). -/
def execSknp (x : Nibble) (s : State) : Outcome := skipOnKey x false s

/-- R123: what the key wait does with its answer: the lowest key down goes to `V[x]`; with none, the
rewind re-issues the instruction at the next step. -/
def State.keyAnswer (s : State) (x : Nibble) : Option Nibble → State
  | none => s.rewind
  | some k => s.setReg x (k.setWidth 8)

/-- LD Vx, K (R123). -/
def execLdKey (x : Nibble) (s : State) : Outcome :=
  .next (s.drawn.keyAnswer x (lowestKey s.keysDown))

/-- LD Vx, DT (R124). -/
def execLdDT (x : Nibble) (s : State) : Outcome := .next (s.setReg x s.DT)

/-- LD DT, Vx (R125). -/
def execSetDT (x : Nibble) (s : State) : Outcome := .next (s.setDT (s.reg x))

/-- LD ST, Vx (R126). -/
def execSetST (x : Nibble) (s : State) : Outcome := .next (s.setST (s.reg x))

end Sys2Proof.Machine
end

