-- ==== Sys2Proof/Machine/Pipeline.lean ====
section
/-! DEFINITION. The stages of a step before execute (40_pipeline.md rules R78 to R83), and the placing
of an instruction where the step fetches next. -/

namespace Sys2Proof.Machine

/-- What the stages before execute come to. -/
inductive FrontEnd where
  /-- The step ends in this state: halted already, a fetch fault, the sentinel, an unknown opcode. -/
  | stop (s : State)
  /-- The instruction to execute, with `pc` advanced. -/
  | run (i : Instr) (s : State)
  deriving DecidableEq, Repr

/-- R80 to R83 on a fetched word: the sentinel test, the advance, decode, the unknown opcode. -/
def State.issue (s : State) (w : Word) : FrontEnd :=
  if w = 0x0000 then .stop (s.raise .haltedNormally)
  else
    match decodeWord w with
    | none => .stop (s.advance.raise (.unknownOpcode w))
    | some i => .run i s.advance

/-- R78, R79 and `State.issue`: the order of checks is R139. -/
def State.frontEnd (s : State) : FrontEnd :=
  match s.phase with
  | .halted _ => .stop s
  | .running =>
    match s.fetch with
    | .error r => .stop (s.raise r)
    | .ok w => s.issue w

/-- `pc` where its two bytes can be fetched, else the entry point (log 10). -/
def State.fetchablePc (s : State) : Word :=
  match s.fetch with
  | .ok _ => s.pc
  | .error _ => resetPc

/-- `s` with the two bytes stored where the next step fetches, and running. -/
def State.withFetchBytes (s : State) (bytes : List Byte) : State :=
  let t := { s with phase := .running, pc := s.fetchablePc }
  t.writeBytes t.pc.toNat bytes

end Sys2Proof.Machine
end

