-- ==== Sys2Proof/Machine/Step.lean ====
section
/-! DEFINITION. The step (40_pipeline.md rule R86). -/

namespace Sys2Proof.Machine

/-- R86: one step. Its result for the host is `State.result` of the state it answers (R134). -/
def step (s : State) : Host.Outcome State Fault Refusal :=
  match s.frontEnd with
  | .stop t => .next t
  | .run i t => exec i t

/-- `s` with the instruction word `w` (numbered as spec/opcode_table.json numbers its bits) where the
next step fetches (log 10). -/
def State.withFetchWord (s : State) (nbits w : Nat) : State :=
  s.withFetchBytes (tableWordBytes nbits w)

end Sys2Proof.Machine
end

