-- ==== Sys2Proof/Machine/Environment.lean ====
section
/-! DEFINITION. What the host may do to the core (60_exceptions.md section 7, rules R144 to R152;
70_reset_and_hazards.md rules R155 to R160): load an image, tick the timers, read the display and the
sound timer, and interleave these with steps. -/

namespace Sys2Proof.Machine

/-- R137, R159: why a load fails. It is no step result. -/
inductive LoadError where
  /-- The image has more than 3584 bytes (R159). -/
  | tooLong (length : Nat)
  deriving DecidableEq, Repr

/-- R158: the program load address. -/
def loadAddress : Nat := 0x200

/-- R158: the maximum program size. -/
def maxImage : Nat := 3584

/-- R158, R159: the program load, all or nothing. The host does it once, on a constructed core, before
the first step (D25). -/
def State.load (s : State) (image : List Byte) : Except LoadError State :=
  if maxImage < image.length then .error (.tooLong image.length)
  else .ok (s.writeBytes loadAddress image)

/-- R160: construction, then the load. -/
def boot (cfg : Params) (image : List Byte) : Except LoadError State :=
  (State.construct cfg).load image

/-- R144: one tick of one timer; a timer at 0 stays at 0. -/
def tickTimer (t : Byte) : Byte := if t = 0 then 0 else t - 1

/-- R144: the host's timer tick. It touches no other state. -/
def State.tick (s : State) : State := { s with DT := tickTimer s.DT, ST := tickTimer s.ST }

/-- R31: the cell of a column and a row. -/
def cellIndex (col row : Nat) : Nat := row * 64 + col

/-- R149: what the external renderer reads at a column and a row. -/
def State.pixelLit (s : State) (col row : Nat) : Bool := cell s.disp (cellIndex col row)

/-- R145: the audio signal, nonzero means play. -/
def State.audioPlaying (s : State) : Bool := decide (s.ST ≠ 0)

/-- R52, R151: the moves of a run. Loading, writing state and resuming are no moves (R152, H-1 to
H-8). -/
inductive Move where
  /-- The core steps (R77). -/
  | step
  /-- The host ticks the timers (R144). -/
  | tick
  /-- The renderer reads the display (R149). -/
  | redraw
  /-- The audio layer reads the sound timer (R145). -/
  | audio
  deriving DecidableEq, Repr

/-- One move, whole (R51, R52). The reads change nothing. -/
def applyMove (m : Move) (s : State) : Outcome :=
  match m with
  | .step => Sys2Proof.Machine.step s
  | .tick => .next s.tick
  | .redraw => .next s
  | .audio => .next s

/-- One interleaving of steps and host actions (R151). A claim about runs is about every list of moves
(log 11). -/
def runMoves : List Move → State → Outcome
  | [], s => .next s
  | m :: ms, s =>
    match applyMove m s with
    | .next t => runMoves ms t
    | .fault r => .fault r
    | .refused r => .refused r

end Sys2Proof.Machine
end

