-- ==== Sys2Proof/Safety.lean ====
section
/-! DEFINITION. The terms claims are stated in: what an instruction leaves unchanged, which accesses pass
the memory checks, which states the invariants admit, and when a run is safe. -/

namespace Sys2Proof.Machine

/-- The pieces of state besides the general registers (R38, and the model's own two). -/
inductive Field where
  | pc | I | sp | stack | DT | ST | disp | mem | phase | cfg | draws
  deriving DecidableEq, Repr

/-- `t` holds what `s` holds in one piece of state. Memory is compared byte by byte. -/
def Field.Same (f : Field) (s t : State) : Prop :=
  match f with
  | .pc => t.pc = s.pc
  | .I => t.I = s.I
  | .sp => t.sp = s.sp
  | .stack => t.stack = s.stack
  | .DT => t.DT = s.DT
  | .ST => t.ST = s.ST
  | .disp => t.disp = s.disp
  | .mem => ∀ a, t.byteAt a = s.byteAt a
  | .phase => t.phase = s.phase
  | .cfg => t.cfg = s.cfg
  | .draws => t.draws = s.draws

/-- The frame of an effect: every general register outside `regs` and every piece of state outside
`fields` is unchanged. -/
def Frame (regs : Nibble → Prop) (fields : List Field) (s t : State) : Prop :=
  (∀ r, ¬ regs r → t.reg r = s.reg r) ∧ ∀ f, f ∉ fields → f.Same s t

/-- No general register. -/
def noReg : Nibble → Prop := fun _ => False

/-- The register `x` alone. -/
def onlyReg (x : Nibble) : Nibble → Prop := fun r => r = x

/-- The register `x` and `VF`. -/
def regAndVF (x : Nibble) : Nibble → Prop := fun r => r = x ∨ r = 0xF

/-- The registers `V0`..`Vx`. -/
def regsThrough (x : Nibble) : Nibble → Prop := fun r => r.toNat ≤ x.toNat

/-- An access at `a` passes the range check (R44). -/
abbrev State.inRange (s : State) (a : Nat) : Prop := a ≤ 0xFFF ∨ s.cfg.memOob = .wrap12

/-- A store at `a` passes the font-region check (R45), on the address of R44. -/
abbrev State.fontAllows (s : State) (a : Nat) : Prop :=
  0x050 ≤ a % 0x1000 ∨ s.cfg.fontWrite = .write

/-- R117, in rows and columns: the sprite pixel at column `c` and row `r` lands on display cell `k`. A
column past 63 is dropped; a row past 31 lands in row 0 at its own column (`offset_mod_64`), in the row
32 above it (`offset_mod_2048`), or is dropped (`clip`). -/
abbrev Lands (policy : DrawVWrap) (c r k : Nat) : Prop :=
  c ≤ 63 ∧ ((r < 32 ∧ k = r * 64 + c) ∨ (32 ≤ r ∧ policy = .offsetMod64 ∧ k = c) ∨
    (32 ≤ r ∧ policy = .offsetMod2048 ∧ k = (r - 32) * 64 + c))

/-- Bit `b` (0 is the leftmost) of sprite row `r` at `I` (R116). -/
abbrev State.spriteBit (s : State) (r b : Nat) : Bool :=
  (s.byteAt ((s.I.toNat + r) % 0x1000)).getLsbD (7 - b)

/-- How many lit sprite bits of DRW Vx, Vy, n land on display cell `k` (R116, R117). -/
def State.spriteHits (s : State) (x y n : Nibble) (k : Nat) : Nat :=
  ∑ r ∈ Finset.range n.toNat, ∑ b ∈ Finset.range 8,
    if s.spriteBit r b = true ∧
        Lands s.cfg.drawVWrap ((s.reg x).toNat % 64 + b) ((s.reg y).toNat % 32 + r) k
      then 1 else 0

/-- R131: by how much a block transfer whose last register is `x` advances `I`. -/
def indexAdvance (mode : IndexInc) (x : Nibble) : Nat :=
  match mode with
  | .none => 0
  | .xPlus1 => x.toNat + 1
  | .x => x.toNat

/-- Memory is in canonical form. -/
abbrev State.MemoryCanonical (s : State) : Prop := s.mem.wf s.cfg.font

/-- The font region holds the font (R42). -/
def State.FontIntact (s : State) : Prop := ∀ a, (h : a < 80) → s.byteAt a = s.cfg.font[a]

/-- R25: under `P_MEM_OOB = fault`, no instruction produces a `pc` above 0x10FE, given that the call
stack holds only addresses a CALL can push. -/
def State.PcBounded (s : State) : Prop :=
  s.cfg.memOob = .fault ∧ s.pc.toNat ≤ 0x10FE ∧ ∀ j, (h : j < 16) → (s.stack[j]).toNat ≤ 0x1000

/-- A run is safe while no step has ended in an abnormal halt (R88): it runs on, or it ended at the
sentinel. -/
def State.Safe (s : State) : Prop := s.phase = .running ∨ s.phase = .halted .haltedNormally

end Sys2Proof.Machine
end

