-- ==== Sys2Proof/Certificates/Slice0/Obligations.lean ====
section
/-! DEFINITION. The statements for the provers, from the numbered rules of spec/. In every statement about
`exec`, `s.pc` is the instruction's address plus 2 (R81); `Frame regs fields s t` says that every general
register outside `regs` and every piece of state outside `fields` is unchanged, memory byte by byte. -/

open Sys2Proof Sys2Proof.Machine

/-! ## Encoding and decoding -/

/-- R66, R76: every instruction of the opcode map, encoded, stored high byte first and decoded, is
itself, whatever follows it. The patterns are the ones the spec takes from general knowledge (log 8). -/
def Obligations.DecodeOfEncodeIsTheInstruction : Prop :=
  ∀ (i : Instr) (rest : List Byte), i.WellFormed →
    decodeWord (encode i) = some i ∧ decodeBytes (encodeBytes i ++ rest) = .ok (i, rest)

/-- R66, R67: a word that decodes is the encoding of the instruction it decodes to, which is in the
opcode map: the decoder drops no bit. -/
def Obligations.EncodeOfDecodeIsTheWord : Prop :=
  ∀ (w : Word) (i : Instr), decodeWord w = some i → encode i = w ∧ i.WellFormed

/-- R76: encoding takes the row's match value and ORs in the fields as the format places them. -/
def Obligations.EncodingIsMatchOrFields : Prop :=
  (∀ i : Instr, encode i = rowMatch i ||| operandBits i) ∧
    encode (.addReg 0 1) = 0x8014 ∧ encode (.drw 1 2 5) = 0xD125

/-- R66: a word `w` is the instruction in a row when `w & mask = match`, and for 0nnn is none of
0x0000, 0x00E0 and 0x00EE. -/
def Obligations.WordIsInARowExactlyByMaskAndMatch : Prop :=
  ∀ (w : Word) (i : Instr),
    (∃ j, decodeWord w = some j ∧ rowMatch j = rowMatch i ∧ rowMask j = rowMask i) ↔
      w &&& rowMask i = rowMatch i ∧
        (rowMatch i = 0x0000 → w ≠ 0x0000 ∧ w ≠ 0x00E0 ∧ w ≠ 0x00EE)

/-- R65, R68: the words with no instruction are 0x0000 and the unassigned encodings of R68's table.
Strictness and the answer for 0x0000 are the spec's decisions D13 and D4 (log 9). -/
def Obligations.UnknownWordsAreTheUnassignedOnes : Prop :=
  ∀ w : Word, decodeWord w = none ↔
    w = 0x0000 ∨ (fieldOp w = 0x5 ∧ fieldN w ≠ 0) ∨
    (fieldOp w = 0x8 ∧ fieldN w ∈ [0x8, 0x9, 0xA, 0xB, 0xC, 0xD, 0xF]) ∨
    (fieldOp w = 0x9 ∧ fieldN w ≠ 0) ∨
    (fieldOp w = 0xE ∧ fieldNN w ∉ [0x9E, 0xA1]) ∨
    (fieldOp w = 0xF ∧ fieldNN w ∉ [0x07, 0x0A, 0x15, 0x18, 0x1E, 0x29, 0x33, 0x55, 0x65])

/-- R61, R66: words written out bit by bit from their formats, one of each family of the table. -/
def Obligations.WordsWrittenFromTheFormatsDecode : Prop :=
  decodeWord 0b0000000011100000 = some .cls ∧
  decodeWord 0b0010001100010010 = some (.call 0x312) ∧
  decodeWord 0b0101001110100000 = some (.seReg 0x3 0xA) ∧
  decodeWord 0b1000011010110101 = some (.sub 0x6 0xB) ∧
  decodeWord 0b1101000100100101 = some (.drw 0x1 0x2 0x5) ∧
  decodeWord 0b1110010110100001 = some (.sknp 0x5) ∧
  decodeWord 0b1111001001010101 = some (.storeRegs 0x2)

/-! ## The step -/

/-- R79 to R86: with the core running and both bytes at `pc` in range, a step whose word decodes to an
instruction is that instruction's execution on the state with `pc` advanced by 2. -/
def Obligations.StepRunsTheDecodedInstruction : Prop :=
  ∀ (s : State) (i : Instr), s.phase = .running →
    s.inRange s.pc.toNat → s.inRange (s.pc.toNat + 1) →
    decodeWord (s.byteAt (s.pc.toNat % 0x1000) ++ s.byteAt ((s.pc.toNat + 1) % 0x1000)) = some i →
    step s = exec i { s with pc := s.pc + 2 }

/-- R80: a fetched word 0x0000 halts normally and changes nothing else, `pc` included. -/
def Obligations.SentinelHaltsWithoutMutation : Prop :=
  ∀ s : State, s.phase = .running → s.inRange s.pc.toNat → s.inRange (s.pc.toNat + 1) →
    s.byteAt (s.pc.toNat % 0x1000) ++ s.byteAt ((s.pc.toNat + 1) % 0x1000) = (0x0000 : BitVec 16) →
    step s = .next { s with phase := .halted .haltedNormally }

/-- R83: a word the decoder does not know halts the step with the raw word; only `pc` has advanced. -/
def Obligations.UnknownOpcodeHaltsWithTheWord : Prop :=
  ∀ (s : State) (w : Word), s.phase = .running →
    s.inRange s.pc.toNat → s.inRange (s.pc.toNat + 1) →
    s.byteAt (s.pc.toNat % 0x1000) ++ s.byteAt ((s.pc.toNat + 1) % 0x1000) = w →
    w ≠ 0x0000 → decodeWord w = none →
    step s = .next { s with pc := s.pc + 2, phase := .halted (.unknownOpcode w) }

/-- R78: a step on a halted core changes nothing and returns the same result again. -/
def Obligations.StepOnAHaltedCoreChangesNothing : Prop :=
  ∀ (s : State) (r : HaltResult), s.phase = .halted r → step s = .next s ∧ s.result = .halt r

/-- R48: under `P_MEM_OOB = fault` a fetch with `pc` of 0xFFF or above halts at the first address above
0xFFF, with `pc` unchanged (R79). -/
def Obligations.FetchOutOfRangeHaltsInPlace : Prop :=
  ∀ s : State, s.phase = .running → s.cfg.memOob = .fault → 0xFFF ≤ s.pc.toNat →
    step s = .next { s with phase := .halted (.fault (.memoryOutOfRange (max s.pc.toNat 0x1000))) }

/-- R47: an instruction fetch is big-endian, `mem[pc]` the high byte and `mem[pc + 1]` the low one. -/
def Obligations.FetchIsBigEndian : Prop :=
  ∀ s : State, s.inRange s.pc.toNat → s.inRange (s.pc.toNat + 1) →
    ∃ w, s.fetch = .ok w ∧
      w.toNat = 256 * (s.byteAt (s.pc.toNat % 0x1000)).toNat +
        (s.byteAt ((s.pc.toNat + 1) % 0x1000)).toNat

/-- R87: every way a step can end is a state with a result for the host: no step and no instruction
ends without one. -/
def Obligations.EveryStepAnswersAState : Prop :=
  (∀ s : State, ∃ t, step s = .next t) ∧ ∀ (i : Instr) (s : State), ∃ t, exec i s = .next t

/-! ## Halts -/

/-- R140: halts are precise. A step that halts the running core changes the phase and `pc` alone: `pc`
stays for the sentinel, and is advanced by 2 for every other halt but an address out of range, which
may come from the fetch or from the instruction. -/
def Obligations.HaltsArePrecise : Prop :=
  ∀ (s t : State) (r : HaltResult), s.phase = .running → step s = .next t → t.phase = .halted r →
    t = { s with phase := .halted r, pc := t.pc } ∧
      (r = .haltedNormally → t.pc = s.pc) ∧
      (r ≠ .haltedNormally → (∀ a, r ≠ .fault (.memoryOutOfRange a)) → t.pc = s.pc + 2) ∧
      (t.pc = s.pc ∨ t.pc = s.pc + 2)

/-- R141: there is no return from a halt. Whatever steps, ticks and reads follow, a halted core keeps
its phase and all its state but the two timers the host ticks. That a tick may fall on a halted core is
the model's reading (log 21). -/
def Obligations.NoMoveLeavesAHalt : Prop :=
  ∀ (moves : List Move) (s t : State) (r : HaltResult), s.phase = .halted r →
    runMoves moves s = .next t → t = { s with DT := t.DT, ST := t.ST }

/-! ## Invariants and whole-machine rules -/

/-- The memory keeps its canonical form (log 13) through every step, whatever the parameters. -/
def Obligations.StepKeepsMemoryCanonical : Prop :=
  ∀ s t : State, s.MemoryCanonical → step s = .next t → t.MemoryCanonical

/-- R42, R45: under `P_FONT_WRITE = fault` the font region keeps holding the font. -/
def Obligations.StepKeepsTheFont : Prop :=
  ∀ s t : State, s.cfg.fontWrite = .fault → s.FontIntact → step s = .next t →
    t.FontIntact ∧ t.cfg.fontWrite = .fault

/-- R25: under `P_MEM_OOB = fault` the largest `pc` any instruction can produce is 0x10FE, and the call
stack holds no address above 0x1000. -/
def Obligations.StepKeepsPcBounded : Prop :=
  ∀ s t : State, s.PcBounded → step s = .next t → t.PcBounded

/-- The three invariants hold at reset, whose parameters are R11's defaults (log 7). -/
def Obligations.ResetMeetsTheInvariants : Prop :=
  State.reset.MemoryCanonical ∧ State.reset.FontIntact ∧ State.reset.cfg.fontWrite = .fault ∧
    State.reset.PcBounded

/-- R38, R157: the state after construction. `pc`, memory and the phase are the source's; the zeros of
the registers, `I`, `sp`, the stack, the timers and the display are the spec's own choice D2 (log 6), and
the font bytes are its default of `P_FONT` (log 14). -/
def Obligations.ResetHoldsTheResetValues : Prop :=
  State.reset.pc = 0x200 ∧ State.reset.phase = .running ∧
    (∀ a, (h : a < 80) → State.reset.byteAt a = defaultFont[a]) ∧
    (∀ a, 0x050 ≤ a → State.reset.byteAt a = 0) ∧
    (∀ x, State.reset.reg x = 0) ∧ State.reset.I = 0 ∧ State.reset.sp = 0 ∧
    (∀ j, (h : j < 16) → State.reset.stack[j] = 0) ∧ State.reset.DT = 0 ∧ State.reset.ST = 0 ∧
    ∀ k < 2048, cell State.reset.disp k = false

/-- R35: the configuration parameters are fixed for a run: no move of a run changes them. -/
def Obligations.ParametersAreFixedForARun : Prop :=
  ∀ (moves : List Move) (s t : State), runMoves moves s = .next t → t.cfg = s.cfg

/-- R29: only CALL and RET write `stack` and `sp`. -/
def Obligations.OnlyCallAndReturnWriteTheStack : Prop :=
  ∀ (i : Instr) (s t : State), exec i s = .next t → i ≠ .ret → (∀ nnn, i ≠ .call nnn) →
    t.stack = s.stack ∧ t.sp = s.sp

/-- R27, R28, R36: a step moves the stack pointer by at most one and never wraps it, and never writes
`stack[0]`. -/
def Obligations.StackPointerNeverWraps : Prop :=
  ∀ s t : State, step s = .next t →
    t.sp.toNat ≤ s.sp.toNat + 1 ∧ s.sp.toNat ≤ t.sp.toNat + 1 ∧ t.stack[0] = s.stack[0]

/-- R31, R59: only 00E0 and Dxyn write the display. -/
def Obligations.OnlyClearAndDrawWriteTheDisplay : Prop :=
  ∀ (i : Instr) (s t : State), exec i s = .next t → i ≠ .cls → (∀ x y n, i ≠ .drw x y n) →
    t.disp = s.disp

/-- R41: of the instructions, only Fx33 and Fx55 write memory. -/
def Obligations.OnlyBcdAndBlockStoreWriteMemory : Prop :=
  ∀ (i : Instr) (s t : State), exec i s = .next t → (∀ x, i ≠ .ldB x) → (∀ x, i ≠ .storeRegs x) →
    ∀ a, t.byteAt a = s.byteAt a

/-- R23: `I` is written by Annn, Fx1E and Fx29, and by Fx55 and Fx65 when `P_INDEX_INC` is not
`none`; nothing else writes it. -/
def Obligations.IndexRegisterWriters : Prop :=
  ∀ (i : Instr) (s t : State), exec i s = .next t →
    (∀ nnn, i ≠ .ldI nnn) → (∀ x, i ≠ .addI x) → (∀ x, i ≠ .ldF x) →
    (s.cfg.indexInc = .none ∨ (∀ x, i ≠ .storeRegs x) ∧ ∀ x, i ≠ .loadRegs x) → t.I = s.I

/-- R30, R143: the core never decrements the timers; Fx15 alone writes `DT` and Fx18 alone `ST`. -/
def Obligations.OnlyTimerLoadsWriteTheTimers : Prop :=
  ∀ (i : Instr) (s t : State), exec i s = .next t →
    ((∀ x, i ≠ .setDT x) → t.DT = s.DT) ∧ ((∀ x, i ≠ .setST x) → t.ST = s.ST)

/-- R21: a flag write always stores 0 or 1: after 8xy4, 8xy5 and 8xy7, after 8xy6 and 8xyE when the
result does not go to `VF` too, and after a Dxyn that draws. -/
def Obligations.FlagWritesStoreZeroOrOne : Prop :=
  ∀ (i : Instr) (s t : State) (x y n : Nibble), exec i s = .next t → t.phase = .running →
    (i = .addReg x y ∨ i = .sub x y ∨ i = .subn x y ∨ (x ≠ 0xF ∧ i = .shr x y) ∨
      (x ≠ 0xF ∧ i = .shl x y) ∨ i = .drw x y n) →
    t.reg 0xF = 0 ∨ t.reg 0xF = 1

/-! ## Control flow -/

/-- R91: SYS halts as an unknown opcode under `P_SYS = unknown` and does nothing under `nop`.
The word reported is the instruction's encoding (log 17). -/
def Obligations.SysFollowsItsParameter : Prop :=
  ∀ (s : State) (nnn : Addr12),
    (s.cfg.sys = .unknown → exec (.sys nnn) s =
      .next { s with phase := .halted (.unknownOpcode (nnn.setWidth 16)) }) ∧
    (s.cfg.sys = .nop → exec (.sys nnn) s = .next s)

/-- R92: RET underflows at `sp = 0`, with nothing changed; else it takes `stack[sp]` to `pc` and
decrements `sp`, leaving the entry stale. -/
def Obligations.ReturnPopsOrUnderflows : Prop :=
  ∀ s : State,
    (s.sp = 0 → exec .ret s = .next { s with phase := .halted .stackUnderflow }) ∧
    (s.sp ≠ 0 → ∃ t, exec .ret s = .next t ∧ t.pc = s.stack[s.sp.toNat] ∧
      t.sp.toNat + 1 = s.sp.toNat ∧ Frame noReg [.pc, .sp] s t)

/-- R93: JP takes its address, zero-extended, to `pc`. -/
def Obligations.JumpSetsPc : Prop :=
  ∀ (s : State) (nnn : Addr12), ∃ t, exec (.jp nnn) s = .next t ∧ t.pc.toNat = nnn.toNat ∧
    Frame noReg [.pc] s t

/-- R94: JP V0 takes the unmasked sum of its address and `V0` to `pc`. -/
def Obligations.JumpV0AddsV0Unmasked : Prop :=
  ∀ (s : State) (nnn : Addr12), ∃ t, exec (.jpV0 nnn) s = .next t ∧
    t.pc.toNat = nnn.toNat + (s.reg 0x0).toNat ∧ Frame noReg [.pc] s t

/-- R95: CALL overflows at `sp = 15`, with nothing changed; else it increments `sp`, stores `pc` there
and jumps, and every other stack entry is unchanged. -/
def Obligations.CallPushesOrOverflows : Prop :=
  ∀ (s : State) (nnn : Addr12),
    (s.sp = 15 → exec (.call nnn) s = .next { s with phase := .halted .stackOverflow }) ∧
    (s.sp ≠ 15 → ∃ t, exec (.call nnn) s = .next t ∧ t.sp.toNat = s.sp.toNat + 1 ∧
      t.pc.toNat = nnn.toNat ∧
      (∀ j, (h : j < 16) → t.stack[j] = if j = s.sp.toNat + 1 then s.pc else s.stack[j]) ∧
      Frame noReg [.pc, .sp, .stack] s t)

/-- R92, R95: a call followed by a return restores `pc` to the instruction after the call and `sp` to
what it was. -/
def Obligations.CallThenReturnRestoresPc : Prop :=
  ∀ (s : State) (nnn : Addr12), s.sp ≠ 15 →
    ∃ t u, exec (.call nnn) s = .next t ∧ exec .ret t = .next u ∧ u.pc = s.pc ∧ u.sp = s.sp ∧
      Frame noReg [.stack] s u

/-- R96 to R99: a taken skip adds 2 to `pc`, modulo 2^16, on top of the step's own advance; an untaken
one changes nothing. -/
def Obligations.SkipsAddTwoWhenTaken : Prop :=
  ∀ (s : State) (x y : Nibble) (nn : Byte),
    (∃ t, exec (.seImm x nn) s = .next t ∧ Frame noReg [.pc] s t ∧
      t.pc = if s.reg x = nn then s.pc + 2 else s.pc) ∧
    (∃ t, exec (.sneImm x nn) s = .next t ∧ Frame noReg [.pc] s t ∧
      t.pc = if s.reg x = nn then s.pc else s.pc + 2) ∧
    (∃ t, exec (.seReg x y) s = .next t ∧ Frame noReg [.pc] s t ∧
      t.pc = if s.reg x = s.reg y then s.pc + 2 else s.pc) ∧
    (∃ t, exec (.sneReg x y) s = .next t ∧ Frame noReg [.pc] s t ∧
      t.pc = if s.reg x = s.reg y then s.pc else s.pc + 2)

/-! ## Register loads and the ALU -/

/-- R102, R104: the two register loads copy their 8-bit value and change nothing else. -/
def Obligations.RegisterLoadsCopyTheirValue : Prop :=
  ∀ (s : State) (x y : Nibble) (nn : Byte),
    (∃ t, exec (.ldImm x nn) s = .next t ∧ t.reg x = nn ∧ Frame (onlyReg x) [] s t) ∧
    (∃ t, exec (.ldReg x y) s = .next t ∧ t.reg x = s.reg y ∧ Frame (onlyReg x) [] s t)

/-- R103: ADD with an immediate wraps modulo 256 and writes no flag. -/
def Obligations.AddImmediateWrapsWithoutFlag : Prop :=
  ∀ (s : State) (x : Nibble) (nn : Byte), ∃ t, exec (.addImm x nn) s = .next t ∧
    (t.reg x).toNat = ((s.reg x).toNat + nn.toNat) % 256 ∧ Frame (onlyReg x) [] s t

/-- R105 to R107: OR, AND and XOR act bit by bit and write no flag. -/
def Obligations.BitwiseOperationsActBitByBit : Prop :=
  ∀ (s : State) (x y : Nibble),
    (∃ t, exec (.or x y) s = .next t ∧ Frame (onlyReg x) [] s t ∧
      ∀ k < 8, (t.reg x).getLsbD k = ((s.reg x).getLsbD k || (s.reg y).getLsbD k)) ∧
    (∃ t, exec (.and x y) s = .next t ∧ Frame (onlyReg x) [] s t ∧
      ∀ k < 8, (t.reg x).getLsbD k = ((s.reg x).getLsbD k && (s.reg y).getLsbD k)) ∧
    (∃ t, exec (.xor x y) s = .next t ∧ Frame (onlyReg x) [] s t ∧
      ∀ k < 8, (t.reg x).getLsbD k = xor ((s.reg x).getLsbD k) ((s.reg y).getLsbD k))

/-- R108: ADD of registers wraps modulo 256 and then sets `VF` to the carry, which wins when `x` is
0xF. -/
def Obligations.AddSetsSumThenCarry : Prop :=
  ∀ (s : State) (x y : Nibble), ∃ t, exec (.addReg x y) s = .next t ∧
    (x ≠ 0xF → (t.reg x).toNat = ((s.reg x).toNat + (s.reg y).toNat) % 256) ∧
    t.reg 0xF = (if (s.reg x).toNat + (s.reg y).toNat > 255 then 1 else 0) ∧
    Frame (regAndVF x) [] s t

/-- R109: SUB wraps modulo 256 and then sets `VF` to 1 iff no borrow occurred, which wins when `x` is
0xF. -/
def Obligations.SubtractSetsDifferenceThenNoBorrow : Prop :=
  ∀ (s : State) (x y : Nibble), ∃ t, exec (.sub x y) s = .next t ∧
    (x ≠ 0xF → (t.reg x).toNat = ((s.reg x).toNat + 256 - (s.reg y).toNat) % 256) ∧
    t.reg 0xF = (if (s.reg x).toNat ≥ (s.reg y).toNat then 1 else 0) ∧
    Frame (regAndVF x) [] s t

/-- R111: SUBN is the subtraction with its operands swapped. -/
def Obligations.SubtractReversedSwapsTheOperands : Prop :=
  ∀ (s : State) (x y : Nibble), ∃ t, exec (.subn x y) s = .next t ∧
    (x ≠ 0xF → (t.reg x).toNat = ((s.reg y).toNat + 256 - (s.reg x).toNat) % 256) ∧
    t.reg 0xF = (if (s.reg y).toNat ≥ (s.reg x).toNat then 1 else 0) ∧
    Frame (regAndVF x) [] s t

/-- R110: SHR halves `V[x]` and puts the bit shifted out in `VF`; with `x` 0xF the final `VF` follows
`P_SHIFT_VF`. `V[y]` takes no part. -/
def Obligations.ShiftRightOfVx : Prop :=
  ∀ (s : State) (x y : Nibble), ∃ t, exec (.shr x y) s = .next t ∧
    (x ≠ 0xF → (t.reg x).toNat = (s.reg x).toNat / 2 ∧
      (t.reg 0xF).toNat = (s.reg x).toNat % 2) ∧
    (x = 0xF → s.cfg.shiftVF = .operandCaptured → (t.reg 0xF).toNat = (s.reg 0xF).toNat / 2) ∧
    (x = 0xF → s.cfg.shiftVF = .inPlace → (t.reg 0xF).toNat = (s.reg 0xF).toNat % 2 / 2) ∧
    Frame (regAndVF x) [] s t ∧ ∀ y', exec (.shr x y') s = exec (.shr x y) s

/-- R112: SHL doubles `V[x]` modulo 256 and puts the bit shifted out in `VF`; with `x` 0xF the final
`VF` follows `P_SHIFT_VF`. `V[y]` takes no part. -/
def Obligations.ShiftLeftOfVx : Prop :=
  ∀ (s : State) (x y : Nibble), ∃ t, exec (.shl x y) s = .next t ∧
    (x ≠ 0xF → (t.reg x).toNat = 2 * (s.reg x).toNat % 256 ∧
      (t.reg 0xF).toNat = (s.reg x).toNat / 128) ∧
    (x = 0xF → s.cfg.shiftVF = .operandCaptured →
      (t.reg 0xF).toNat = 2 * (s.reg 0xF).toNat % 256) ∧
    (x = 0xF → s.cfg.shiftVF = .inPlace →
      (t.reg 0xF).toNat = 2 * ((s.reg 0xF).toNat / 128) % 256) ∧
    Frame (regAndVF x) [] s t ∧ ∀ y', exec (.shl x y') s = exec (.shl x y) s

/-- R113: RND puts one fresh random byte AND the mask in `V[x]`, whatever the byte is; a mask of 0
gives 0, a mask of 0xFF the byte. The byte is a free value of the draw counter (log 4). -/
def Obligations.RandomMasksOneDraw : Prop :=
  ∀ (s : State) (x : Nibble) (nn : Byte), ∃ t, exec (.rnd x nn) s = .next t ∧
    (∀ k < 8, (t.reg x).getLsbD k = ((Config.randByte s.draws).getLsbD k && nn.getLsbD k)) ∧
    (nn = 0x00 → t.reg x = 0) ∧ (nn = 0xFF → t.reg x = Config.randByte s.draws) ∧
    t.draws = s.draws + 1 ∧ Frame (onlyReg x) [.draws] s t

/-! ## Display -/

/-- R115: CLS makes every cell 0 and changes nothing else. -/
def Obligations.ClearScreenDarkensEveryCell : Prop :=
  ∀ s : State, ∃ t, exec .cls s = .next t ∧ (∀ k < 2048, cell t.disp k = false) ∧
    Frame noReg [.disp] s t

/-- R116 to R119: with its sprite in range, DRW turns a cell over once for each lit sprite bit that
lands on it, sets `VF` to 1 exactly when some cell goes dark on the way (it was lit and is hit, or it
is hit twice) and to 0 otherwise, and changes nothing else. A draw of no rows needs no address in
range. Counting the hits of a cell is this statement's form of the bit-by-bit loop of R116. -/
def Obligations.DrawXorsTheSpriteAndDetectsCollision : Prop :=
  ∀ (s : State) (x y n : Nibble), (∀ r < n.toNat, s.inRange (s.I.toNat + r)) →
    ∃ t, exec (.drw x y n) s = .next t ∧
      (∀ k < 2048, cell t.disp k =
        xor (cell s.disp k) (decide (s.spriteHits x y n k % 2 = 1))) ∧
      (t.reg 0xF = 0 ∨ t.reg 0xF = 1) ∧
      (t.reg 0xF = 1 ↔ ∃ k < 2048,
        (1 ≤ s.spriteHits x y n k ∧ cell s.disp k = true) ∨ 2 ≤ s.spriteHits x y n k) ∧
      Frame (onlyReg 0xF) [.disp] s t

/-- R119 (f): drawing the same sprite twice at the same place leaves the display as it was, whatever the
vertical edge policy. Neither coordinate may be `VF`, which the first draw writes. -/
def Obligations.DrawingTwiceRestoresTheDisplay : Prop :=
  ∀ (s t u : State) (x y n : Nibble), x ≠ 0xF → y ≠ 0xF →
    exec (.drw x y n) s = .next t → exec (.drw x y n) t = .next u → u.disp = s.disp

/-! ## Keys and timers -/

/-- R120, R121: SKP asks for the key that `V[x]` names and skips when it is down. Above 0xF,
`P_KEY_OOB` decides: halt, not down and not asked, or the low nibble's key. The answer is a free value
of the draw counter (logs 4 and 5). -/
def Obligations.SkipIfKeyDown : Prop :=
  ∀ (s : State) (x : Nibble),
    ((s.reg x).toNat ≤ 0xF ∨ s.cfg.keyOob = .lowNibble → ∃ t, exec (.skp x) s = .next t ∧
      t.pc = (if (Config.keysDown s.draws).getLsbD ((s.reg x).toNat % 16) then s.pc + 2 else s.pc) ∧
      t.draws = s.draws + 1 ∧ Frame noReg [.pc, .draws] s t) ∧
    (0xF < (s.reg x).toNat → s.cfg.keyOob = .notDown → exec (.skp x) s = .next s) ∧
    (0xF < (s.reg x).toNat → s.cfg.keyOob = .fault → exec (.skp x) s =
      .next { s with phase := .halted (.fault (.keyIndexOutOfRange (s.reg x))) })

/-- R120, R122: SKNP skips when the key that `V[x]` names is not down; above 0xF, `P_KEY_OOB` decides,
and a key counted as not down always skips. The answer is a free value of the draw counter (logs 4
and 5). -/
def Obligations.SkipIfKeyNotDown : Prop :=
  ∀ (s : State) (x : Nibble),
    ((s.reg x).toNat ≤ 0xF ∨ s.cfg.keyOob = .lowNibble → ∃ t, exec (.sknp x) s = .next t ∧
      t.pc = (if (Config.keysDown s.draws).getLsbD ((s.reg x).toNat % 16) then s.pc else s.pc + 2) ∧
      t.draws = s.draws + 1 ∧ Frame noReg [.pc, .draws] s t) ∧
    (0xF < (s.reg x).toNat → s.cfg.keyOob = .notDown →
      exec (.sknp x) s = .next { s with pc := s.pc + 2 }) ∧
    (0xF < (s.reg x).toNat → s.cfg.keyOob = .fault → exec (.sknp x) s =
      .next { s with phase := .halted (.fault (.keyIndexOutOfRange (s.reg x))) })

/-- R123: the key wait stores the lowest-indexed key that is down and goes on, or, with none down,
rewinds `pc` by 2 and changes no register. The answer is a free value of the draw counter (logs 4 and
5). -/
def Obligations.KeyWaitTakesLowestKeyOrRewinds : Prop :=
  ∀ (s : State) (x : Nibble), ∃ t, exec (.ldKey x) s = .next t ∧ t.draws = s.draws + 1 ∧
    (((∀ k < 16, (Config.keysDown s.draws).getLsbD k = false) ∧ t.pc = s.pc - 2 ∧
        Frame noReg [.pc, .draws] s t) ∨
      ∃ k < 16, (Config.keysDown s.draws).getLsbD k = true ∧
        (∀ j < k, (Config.keysDown s.draws).getLsbD j = false) ∧ (t.reg x).toNat = k ∧
        Frame (onlyReg x) [.draws] s t)

/-- R124 to R126: the three timer transfers. That `V[x]` is what goes into a timer is general knowledge
the spec adopts (log 23). -/
def Obligations.TimerLoadsMoveTheValue : Prop :=
  ∀ (s : State) (x : Nibble),
    (∃ t, exec (.ldDT x) s = .next t ∧ t.reg x = s.DT ∧ Frame (onlyReg x) [] s t) ∧
    (∃ t, exec (.setDT x) s = .next t ∧ t.DT = s.reg x ∧ Frame noReg [.DT] s t) ∧
    (∃ t, exec (.setST x) s = .next t ∧ t.ST = s.reg x ∧ Frame noReg [.ST] s t)

/-! ## Index register and memory blocks -/

/-- R127, R128: Annn sets `I` to its zero-extended address; Fx1E adds `V[x]` modulo 2^16 and writes no
flag. -/
def Obligations.IndexLoadAndAdd : Prop :=
  ∀ (s : State) (x : Nibble) (nnn : Addr12),
    (∃ t, exec (.ldI nnn) s = .next t ∧ t.I.toNat = nnn.toNat ∧ Frame noReg [.I] s t) ∧
    (∃ t, exec (.addI x) s = .next t ∧ t.I.toNat = (s.I.toNat + (s.reg x).toNat) % 65536 ∧
      Frame noReg [.I] s t)

/-- R129: Fx29 sets `I` to five times the digit: all of `V[x]` under `full`, its low nibble under
`low_nibble`. -/
def Obligations.FontGlyphAddress : Prop :=
  ∀ (s : State) (x : Nibble), ∃ t, exec (.ldF x) s = .next t ∧
    t.I.toNat = 5 * (if s.cfg.fontDigit = .full then (s.reg x).toNat else (s.reg x).toNat % 16) ∧
    Frame noReg [.I] s t

/-- R130: with its three addresses accepted, Fx33 stores the decimal digits of `V[x]`, hundreds first,
and changes no other byte and nothing else; the digits give the value back. -/
def Obligations.BcdStoresTheThreeDigits : Prop :=
  ∀ (s : State) (x : Nibble),
    (∀ k < 3, s.inRange (s.I.toNat + k) ∧ s.fontAllows (s.I.toNat + k)) →
    ∃ t h d o, exec (.ldB x) s = .next t ∧
      t.byteAt (s.I.toNat % 0x1000) = h ∧ t.byteAt ((s.I.toNat + 1) % 0x1000) = d ∧
      t.byteAt ((s.I.toNat + 2) % 0x1000) = o ∧
      h.toNat ≤ 2 ∧ d.toNat ≤ 9 ∧ o.toNat ≤ 9 ∧
      100 * h.toNat + 10 * d.toNat + o.toNat = (s.reg x).toNat ∧
      (∀ a, (∀ k < 3, a ≠ (s.I.toNat + k) % 0x1000) → t.byteAt a = s.byteAt a) ∧
      Frame noReg [.mem] s t

/-- R132, R131: with every address accepted, Fx55 stores `V[0]`..`V[x]` at `I`..`I + x`, changes no other
byte, and then advances `I` as `P_INDEX_INC` says; the amounts are general knowledge the spec adopts
(log 24). -/
def Obligations.BlockStoreWritesTheRegisters : Prop :=
  ∀ (s : State) (x : Nibble),
    (∀ k ≤ x.toNat, s.inRange (s.I.toNat + k) ∧ s.fontAllows (s.I.toNat + k)) →
    ∃ t, exec (.storeRegs x) s = .next t ∧
      (∀ k : Nibble, k.toNat ≤ x.toNat → t.byteAt ((s.I.toNat + k.toNat) % 0x1000) = s.reg k) ∧
      (∀ a, (∀ k ≤ x.toNat, a ≠ (s.I.toNat + k) % 0x1000) → t.byteAt a = s.byteAt a) ∧
      t.I.toNat = (s.I.toNat + indexAdvance s.cfg.indexInc x) % 65536 ∧
      Frame noReg [.mem, .I] s t

/-- R133, R131: with every address in range, Fx65 loads `V[0]`..`V[x]` from `I`..`I + x`, leaves the
registers above `x`, and then advances `I` as `P_INDEX_INC` says (amounts: log 24). -/
def Obligations.BlockLoadReadsTheRegisters : Prop :=
  ∀ (s : State) (x : Nibble), (∀ k ≤ x.toNat, s.inRange (s.I.toNat + k)) →
    ∃ t, exec (.loadRegs x) s = .next t ∧
      (∀ k : Nibble, k.toNat ≤ x.toNat → t.reg k = s.byteAt ((s.I.toNat + k.toNat) % 0x1000)) ∧
      t.I.toNat = (s.I.toNat + indexAdvance s.cfg.indexInc x) % 65536 ∧
      Frame (regsThrough x) [.I] s t

/-- R44 to R46, R139: an instruction that accesses memory halts at the first of its addresses, in
ascending order, that fails a check, the range check before the font-region check, and has no effect.
The address reported is the unreduced one for the range and the one of R44 for the font (log 16). -/
def Obligations.FirstFailingAddressHalts : Prop :=
  ∀ (s : State) (i : Instr) (writes : Bool) (count k : Nat),
    ((∃ x, i = .ldB x ∧ writes = true ∧ count = 3) ∨
      (∃ x, i = .storeRegs x ∧ writes = true ∧ count = x.toNat + 1) ∨
      (∃ x, i = .loadRegs x ∧ writes = false ∧ count = x.toNat + 1) ∨
      (∃ x y n, i = .drw x y n ∧ writes = false ∧ count = n.toNat)) →
    k < count →
    (∀ j < k, s.inRange (s.I.toNat + j) ∧ (writes = true → s.fontAllows (s.I.toNat + j))) →
    (¬ s.inRange (s.I.toNat + k) → exec i s =
      .next { s with phase := .halted (.fault (.memoryOutOfRange (s.I.toNat + k))) }) ∧
    (s.inRange (s.I.toNat + k) → writes = true → ¬ s.fontAllows (s.I.toNat + k) → exec i s =
      .next { s with phase := .halted (.fault (.fontWrite ((s.I.toNat + k) % 0x1000))) })

/-! ## The host's side -/

/-- R144: one tick decrements each timer that is not 0, leaves one that is at 0, and touches no other
state. That 0 stays 0 is general knowledge the spec adopts (D20, log 22). -/
def Obligations.TickDecrementsNonzeroTimers : Prop :=
  ∀ s : State, (s.tick.DT.toNat = if s.DT.toNat > 0 then s.DT.toNat - 1 else 0) ∧
    (s.tick.ST.toNat = if s.ST.toNat > 0 then s.ST.toNat - 1 else 0) ∧
    Frame noReg [.DT, .ST] s s.tick

/-- R158, R159: an image of at most 3584 bytes is written from 0x200 on and nothing else changes; a
longer one is a load error. -/
def Obligations.LoadIsAllOrNothing : Prop :=
  ∀ (s : State) (image : List Byte),
    (image.length ≤ 3584 → ∃ t, s.load image = .ok t ∧
      (∀ i, (h : i < image.length) → t.byteAt (0x200 + i) = image[i]) ∧
      (∀ a, a < 0x200 ∨ 0x200 + image.length ≤ a → t.byteAt a = s.byteAt a) ∧
      Frame noReg [.mem] s t) ∧
    (3584 < image.length → ∃ e, s.load image = .error e)

/-- R161: with no image, or one whose first word is 0x0000, the first step halts normally and changes
nothing else, under any parameters. -/
def Obligations.ImageOfZeroWordHaltsAtTheFirstStep : Prop :=
  ∀ (cfg : Params) (image : List Byte) (s : State), boot cfg image = .ok s →
    (image = [] ∨ ∃ rest, image = 0x00 :: 0x00 :: rest) →
    step s = .next { s with phase := .halted .haltedNormally }
end

