-- ==== Sys2Proof/Laws/Decode.lean ====
section
/-! SUPPORT. The fields of the six formats (R61, R62), and the words of the opcode map's rows. -/

namespace Sys2Proof

variable (op x y n : Nibble) (nn : Byte) (nnn : Addr12)

@[simp] theorem fieldOp_encA : fieldOp (encA op nnn) = op := by
  ext i hi; simp [fieldOp, encA]; grind
@[simp] theorem fieldNNN_encA : fieldNNN (encA op nnn) = nnn := by
  ext i hi; simp [fieldNNN, encA]; grind

@[simp] theorem fieldOp_encXNN : fieldOp (encXNN op x nn) = op := by
  ext i hi; simp [fieldOp, encXNN]; grind
@[simp] theorem fieldX_encXNN : fieldX (encXNN op x nn) = x := by
  ext i hi; simp [fieldX, encXNN]; grind
@[simp] theorem fieldNN_encXNN : fieldNN (encXNN op x nn) = nn := by
  ext i hi; simp [fieldNN, encXNN]; grind

@[simp] theorem fieldOp_encXYN : fieldOp (encXYN op x y n) = op := by
  ext i hi; simp [fieldOp, encXYN]; grind
@[simp] theorem fieldX_encXYN : fieldX (encXYN op x y n) = x := by
  ext i hi; simp [fieldX, encXYN]; grind
@[simp] theorem fieldY_encXYN : fieldY (encXYN op x y n) = y := by
  ext i hi; simp [fieldY, encXYN]; grind
@[simp] theorem fieldN_encXYN : fieldN (encXYN op x y n) = n := by
  ext i hi; simp [fieldN, encXYN]; grind

/-- A word is its top nibble and its low twelve bits. -/
theorem encA_fields (w : Word) : encA (fieldOp w) (fieldNNN w) = w := by
  ext i hi; simp [fieldOp, fieldNNN, encA]; grind
/-- A word is its top nibble, its second nibble and its low byte. -/
theorem encXNN_fields (w : Word) : encXNN (fieldOp w) (fieldX w) (fieldNN w) = w := by
  ext i hi; simp [fieldOp, fieldX, fieldNN, encXNN]; grind
/-- A word is its four nibbles. -/
theorem encXYN_fields (w : Word) : encXYN (fieldOp w) (fieldX w) (fieldY w) (fieldN w) = w := by
  ext i hi; simp [fieldOp, fieldX, fieldY, fieldN, encXYN]; grind

/-- The low byte's own nibbles. -/
theorem fieldNN_eq (w : Word) : fieldNN w = (fieldY w ++ fieldN w : BitVec 8) := by
  ext i hi; simp [fieldNN, fieldY, fieldN]; grind

/-- Joining the two bytes of a word gives it back, high byte first (R47). -/
@[simp] theorem wordOfBytes_split (w : Word) :
    wordOfBytes (w.extractLsb' 8 8) (w.extractLsb' 0 8) = w := by
  ext i hi; simp [wordOfBytes]; grind

end Sys2Proof
end

