-- ==== Sys2Proof/Laws/Display.lean ====
section
/-! SUPPORT. The laws of the display: what flipping a cell does, and what a whole draw does to each cell
and to the collision flag, in terms of how often it flips the cell. -/

namespace Sys2Proof.Machine

/-- Flipping a cell changes it and no other (R14). -/
theorem cell_flipCell (d : Display) {j k : Nat} (hj : j < 2048) (hk : k < 2048) :
    cell (flipCell d k) j = xor (cell d j) (decide (j = k)) := by
  have h1 : j / 64 < 32 := by omega
  have h2 : k / 64 < 32 := by omega
  unfold cell flipCell
  simp only [h1, h2, dif_pos]
  by_cases h : j / 64 = k / 64
  · have hm : j % 64 < 64 := Nat.mod_lt _ (by decide)
    have e : (j % 64 = k % 64) ↔ (j = k) := by omega
    simp [h, e, hm]
  · have e : j ≠ k := fun e => h (by rw [e])
    simp [Ne.symm h, e]

@[simp] theorem cell_darkDisplay (k : Nat) : cell darkDisplay k = false := by
  unfold cell darkDisplay
  split <;> simp

/-- Two displays with the same 2048 cells are the same display. -/
theorem display_ext {d e : Display} (h : ∀ k < 2048, cell d k = cell e k) : d = e := by
  refine Vector.ext fun i hi => BitVec.eq_of_getLsbD_eq fun j hj => ?_
  have := h (i * 64 + j) (by omega)
  have h1 : (i * 64 + j) / 64 = i := by omega
  have h2 : (i * 64 + j) % 64 = j := by omega
  simpa [cell, h1, h2, hi] using this

/-- `pixelIndex` gives the cell where R117 says the pixel lands. -/
theorem pixelIndex_eq_some {policy : DrawVWrap} {c r k : Nat} (hr : r < 64) :
    pixelIndex policy c r = some k ↔ Lands policy c r k := by
  unfold pixelIndex Lands
  by_cases hc : 63 < c
  · simp [hc, Nat.not_le.2 hc]
  · by_cases h : r * 64 + c < 2048
    · have hr' : r < 32 := by omega
      simp [hc, h, hr', Nat.not_lt.1 hc, Nat.not_le.2 hr', eq_comm]
    · have hr' : 32 ≤ r := by omega
      have e1 : (r * 64 + c) % 64 = c := by omega
      have e2 : (r * 64 + c) % 2048 = (r - 32) * 64 + c := by omega
      cases policy <;> simp [hc, h, hr', Nat.not_lt.2 hr', Nat.not_lt.1 hc, e1, e2, eq_comm]

theorem lands_lt {policy : DrawVWrap} {c r k : Nat} (hr : r < 64) (h : Lands policy c r k) :
    k < 2048 := by
  obtain ⟨hc, h | h | h⟩ := h <;> omega

/-- A draw of the cells `ks` in order: each is flipped, and a lit one that is flipped is a hit (R118). -/
def plotCells (d : Drawing) (ks : List Nat) : Drawing :=
  ks.foldl (fun d k => { disp := flipCell d.disp k, hit := d.hit || cell d.disp k }) d

/-- After a draw, a cell is what it was, turned over once for each time it was flipped. -/
theorem plotCells_cell (ks : List Nat) (hks : ∀ k ∈ ks, k < 2048) (d : Drawing) {j : Nat}
    (hj : j < 2048) :
    cell (plotCells d ks).disp j = xor (cell d.disp j) (decide (ks.count j % 2 = 1)) := by
  induction ks generalizing d with
  | nil => simp [plotCells]
  | cons k ks ih =>
    have := ih (fun a ha => hks a (List.mem_cons_of_mem _ ha))
      { disp := flipCell d.disp k, hit := d.hit || cell d.disp k }
    simp only [plotCells, List.foldl_cons] at this ⊢
    rw [this, cell_flipCell _ hj (hks k List.mem_cons_self), List.count_cons, Bool.xor_assoc]
    congr 1
    by_cases e : j = k
    · subst e
      rcases Nat.mod_two_eq_zero_or_one (ks.count j) with h | h <;> simp [h, Nat.add_mod]
    · have : (k == j) = false := by simpa using fun h => e h.symm
      simp [e, this]

/-- R118: a draw collides exactly when some cell is flipped while lit: a cell lit before that is
flipped at all, or any cell flipped twice. -/
theorem plotCells_hit (ks : List Nat) (hks : ∀ k ∈ ks, k < 2048) (d : Drawing) :
    (plotCells d ks).hit = true ↔
      d.hit = true ∨ ∃ j < 2048, (1 ≤ ks.count j ∧ cell d.disp j = true) ∨ 2 ≤ ks.count j := by
  induction ks generalizing d with
  | nil => simp [plotCells]
  | cons k ks ih =>
    have hk := hks k List.mem_cons_self
    have := ih (fun a ha => hks a (List.mem_cons_of_mem _ ha))
      { disp := flipCell d.disp k, hit := d.hit || cell d.disp k }
    simp only [plotCells, List.foldl_cons] at this ⊢
    rw [this]
    simp only [Bool.or_eq_true, List.count_cons]
    constructor
    · rintro ((h | h) | ⟨j, hj, h⟩)
      · exact .inl h
      · exact .inr ⟨k, hk, .inl ⟨by simp, h⟩⟩
      · rw [cell_flipCell _ hj hk] at h
        refine .inr ⟨j, hj, ?_⟩
        by_cases e : j = k
        · subst e
          simp only [decide_true, Bool.xor_true, Bool.not_eq_true', beq_self_eq_true, if_true] at h ⊢
          rcases h with ⟨h1, _⟩ | h <;> right <;> omega
        · have e' : (k == j) = false := by simpa using fun h => e h.symm
          simpa [e, e'] using h
    · rintro (h | ⟨j, hj, h⟩)
      · exact .inl (.inl h)
      · by_cases e : j = k
        · subst e
          simp only [beq_self_eq_true, if_true] at h
          by_cases hl : cell d.disp j = true
          · exact .inl (.inr hl)
          · refine .inr ⟨j, hj, .inl ⟨?_, ?_⟩⟩
            · rcases h with ⟨_, h⟩ | h
              · exact absurd h hl
              · omega
            · rw [cell_flipCell _ hj hk]; simp [hl]
        · have e' : (k == j) = false := by simpa using fun h => e h.symm
          refine .inr ⟨j, hj, ?_⟩
          rw [cell_flipCell _ hj hk]
          simpa [e, e'] using h

/-- The cells that bits `b`, `b + 1`, … (`m` of them) of a sprite row flip, in order. -/
def bitCells (policy : DrawVWrap) (row : Byte) (cx r b : Nat) : Nat → List Nat
  | 0 => []
  | m + 1 =>
    (if row.getLsbD (7 - b) then (pixelIndex policy (cx + b) r).toList else []) ++
      bitCells policy row cx r (b + 1) m

/-- The cells that the sprite rows flip, in order. -/
def rowCells (policy : DrawVWrap) (cx r : Nat) : List Byte → List Nat
  | [] => []
  | row :: rows => bitCells policy row cx r 0 8 ++ rowCells policy cx (r + 1) rows

theorem drawBits_eq_plotCells (policy : DrawVWrap) (row : Byte) (cx r b m : Nat) (d : Drawing) :
    drawBits policy row cx r b d m = plotCells d (bitCells policy row cx r b m) := by
  induction m generalizing b d with
  | zero => rfl
  | succ m ih =>
    rw [drawBits, ih, bitCells, plotCells, plotCells, List.foldl_append]
    congr 1
    split
    · unfold plot; cases pixelIndex policy (cx + b) r <;> rfl
    · rfl

/-- A draw is the plotting of its cells, row by row, most significant bit first (R116). -/
theorem drawRows_eq_plotCells (policy : DrawVWrap) (cx r : Nat) (rows : List Byte) (d : Drawing) :
    drawRows policy cx r d rows = plotCells d (rowCells policy cx r rows) := by
  induction rows generalizing r d with
  | nil => rfl
  | cons row rows ih =>
    rw [drawRows, ih, drawBits_eq_plotCells, rowCells, plotCells, plotCells, plotCells,
      List.foldl_append]

theorem bitCells_lt {policy : DrawVWrap} {row : Byte} {cx r b m k : Nat} (hr : r < 64)
    (h : k ∈ bitCells policy row cx r b m) : k < 2048 := by
  induction m generalizing b with
  | zero => simp [bitCells] at h
  | succ m ih =>
    rw [bitCells, List.mem_append] at h
    rcases h with h | h
    · split at h
      · exact lands_lt hr ((pixelIndex_eq_some hr).1 (by simpa using h))
      · simp at h
    · exact ih h

theorem rowCells_lt {policy : DrawVWrap} {cx r : Nat} {rows : List Byte} {k : Nat}
    (hr : r + rows.length ≤ 64) (h : k ∈ rowCells policy cx r rows) : k < 2048 := by
  induction rows generalizing r with
  | nil => simp [rowCells] at h
  | cons row rows ih =>
    simp only [List.length_cons] at hr
    rw [rowCells, List.mem_append] at h
    rcases h with h | h
    · exact bitCells_lt (by omega) h
    · exact ih (by omega) h

/-- How often a row flips a cell: once for each of its lit bits that lands there. -/
theorem bitCells_count (policy : DrawVWrap) (row : Byte) (cx r b m k : Nat) (hr : r < 64) :
    (bitCells policy row cx r b m).count k =
      ∑ i ∈ Finset.range m,
        if row.getLsbD (7 - (b + i)) = true ∧ Lands policy (cx + (b + i)) r k then 1 else 0 := by
  induction m generalizing b with
  | zero => simp [bitCells]
  | succ m ih =>
    rw [bitCells, List.count_append, ih, Finset.sum_range_succ', Nat.add_comm]
    congr 1
    · refine Finset.sum_congr rfl fun i _ => ?_
      rw [show b + 1 + i = b + (i + 1) by omega]
    · simp only [Nat.add_zero]
      by_cases hb : row.getLsbD (7 - b) = true
      · simp only [hb, if_true, true_and]
        by_cases hL : Lands policy (cx + b) r k
        · rw [if_pos hL, (pixelIndex_eq_some hr).2 hL]; simp
        · rw [if_neg hL]
          cases hp : pixelIndex policy (cx + b) r with
          | none => simp
          | some j =>
            have : j ≠ k := fun e => hL ((pixelIndex_eq_some hr).1 (e ▸ hp))
            simp [this]
      · simp [hb]

/-- How often a draw flips a cell. -/
theorem rowCells_count (policy : DrawVWrap) (cx r : Nat) (rows : List Byte) (k : Nat)
    (hr : r + rows.length ≤ 64) :
    (rowCells policy cx r rows).count k =
      ∑ i ∈ Finset.range rows.length, ∑ b ∈ Finset.range 8,
        if (rows.getD i 0).getLsbD (7 - b) = true ∧ Lands policy (cx + b) (r + i) k then 1 else 0 := by
  induction rows generalizing r with
  | nil => simp [rowCells]
  | cons row rows ih =>
    simp only [List.length_cons] at hr
    rw [rowCells, List.count_append, ih (r + 1) (by omega), bitCells_count _ _ _ _ _ _ _ (by omega),
      List.length_cons, Finset.sum_range_succ' _ rows.length, Nat.add_comm]
    simp only [List.getD_cons_succ, List.getD_cons_zero, Nat.zero_add, Nat.add_zero,
      show ∀ i, r + 1 + i = r + (i + 1) by intro i; omega]

end Sys2Proof.Machine
end

