-- ==== Sys2Proof/Laws/Memory.lean ====
section
/-! SUPPORT. The laws of memory as data: what a read gives after a write, and that every operation keeps
the canonical form. -/

namespace Sys2Proof.Machine

variable (font : Font)

theorem Memory.read_enter (a b : Nat) (v : Byte) (m : Memory) :
    Memory.read font (Memory.enter a v m) b = if b = a then v else Memory.read font m b := by
  induction m with
  | nil => simp [Memory.enter, Memory.read]
  | cons c m ih =>
    obtain ⟨k, w⟩ := c
    simp only [Memory.enter]
    split
    · simp only [Memory.read]
    · split
      · next h => subst h; simp only [Memory.read]; split <;> rfl
      · next h => simp only [Memory.read, ih]; grind

theorem Memory.read_drop (a b : Nat) (m : Memory) :
    Memory.read font (Memory.drop a m) b = if b = a then initialByte font a else Memory.read font m b := by
  induction m with
  | nil => simp only [Memory.drop, List.filter_nil, Memory.read]; grind
  | cons c m ih =>
    obtain ⟨k, w⟩ := c
    simp only [Memory.drop, List.filter_cons] at ih ⊢
    split <;> simp only [Memory.read, ih] <;> grind

/-- Read after write: the byte written at `a`, the byte held before anywhere else. -/
theorem Memory.read_write (m : Memory) (a b : Nat) (v : Byte) :
    Memory.read font (Memory.write font m a v) b = if b = a then v else Memory.read font m b := by
  unfold Memory.write
  split
  · next h => rw [Memory.read_drop, h]
  · exact Memory.read_enter font a b v m

theorem Memory.mem_enter {a : Nat} {v : Byte} {m : Memory} {c : Host.Cell}
    (h : c ∈ Memory.enter a v m) : c = (a, v) ∨ c ∈ m := by
  induction m with
  | nil => simpa [Memory.enter] using h
  | cons d m ih =>
    obtain ⟨k, w⟩ := d
    simp only [Memory.enter] at h
    split at h <;> [skip; split at h] <;> simp only [List.mem_cons] at h ⊢ <;> grind

theorem Memory.enter_pairwise (a : Nat) (v : Byte) {m : Memory}
    (h : m.Pairwise (fun c d => c.1 < d.1)) :
    (Memory.enter a v m).Pairwise (fun c d => c.1 < d.1) := by
  induction m with
  | nil => simp [Memory.enter]
  | cons d m ih =>
    obtain ⟨k, w⟩ := d
    rw [List.pairwise_cons] at h
    simp only [Memory.enter]
    split
    · next hk =>
      refine List.pairwise_cons.2 ⟨fun c hc => ?_, List.pairwise_cons.2 h⟩
      rcases List.mem_cons.1 hc with rfl | hc
      · exact hk
      · exact lt_trans hk (h.1 c hc)
    · split
      · next hk => subst hk; exact List.pairwise_cons.2 ⟨h.1, h.2⟩
      · next hlt hne =>
        refine List.pairwise_cons.2 ⟨fun c hc => ?_, ih h.2⟩
        rcases Memory.mem_enter hc with rfl | hc
        · show k < a; omega
        · exact h.1 c hc

/-- A write to one of the 4096 addresses keeps the canonical form. -/
theorem Memory.write_wf {m : Memory} (h : m.wf font) {a : Nat} (ha : a < 0x1000) (v : Byte) :
    (Memory.write font m a v).wf font := by
  unfold Memory.write
  split
  · exact ⟨h.1.filter _, fun c hc => h.2 c (List.mem_filter.1 hc).1⟩
  · next hv =>
    refine ⟨Memory.enter_pairwise a v h.1, fun c hc => ?_⟩
    rcases Memory.mem_enter hc with rfl | hc
    · exact ⟨ha, hv⟩
    · exact h.2 c hc

theorem effective_lt (a : Nat) : effective a < 0x1000 := Nat.mod_lt _ (by decide)

/-! ## The same laws on the state -/

variable (s : State)

/-- What a byte reads as after one `MemWrite` (R51). -/
theorem State.memWrite_byteAt (a b : Nat) (v : Byte) :
    (s.memWrite a v).byteAt b = if b = effective a then v else s.byteAt b :=
  Memory.read_write _ _ _ _ _

theorem State.memWrite_canonical {s : State} (h : s.MemoryCanonical) (a : Nat) (v : Byte) :
    (s.memWrite a v).MemoryCanonical := Memory.write_wf _ h (effective_lt a) v

/-- Writing bytes changes memory alone. -/
theorem State.writeBytes_eq (base : Nat) (bytes : List Byte) :
    ∃ m, s.writeBytes base bytes = { s with mem := m } := by
  induction bytes generalizing s base with
  | nil => exact ⟨s.mem, rfl⟩
  | cons b bs ih =>
    obtain ⟨m, hm⟩ := ih (s.memWrite base b) (base + 1)
    exact ⟨m, hm⟩

theorem State.writeBytes_canonical {s : State} (h : s.MemoryCanonical) (base : Nat)
    (bytes : List Byte) : (s.writeBytes base bytes).MemoryCanonical := by
  induction bytes generalizing s base with
  | nil => exact h
  | cons b bs ih => exact ih (State.memWrite_canonical h base b) (base + 1)

/-- A byte none of the written addresses reaches is as before. -/
theorem State.writeBytes_byteAt_other (base : Nat) (bytes : List Byte) (a : Nat)
    (h : ∀ k < bytes.length, a ≠ effective (base + k)) :
    (s.writeBytes base bytes).byteAt a = s.byteAt a := by
  induction bytes generalizing s base with
  | nil => rfl
  | cons b bs ih =>
    rw [State.writeBytes, ih, State.memWrite_byteAt, if_neg]
    · simpa using h 0 (by simp)
    · intro k hk
      have := h (k + 1) (by simpa using hk)
      rwa [show base + (k + 1) = base + 1 + k by omega] at this

/-- The bytes written are read back: at most 4096 of them, so no two share an address. -/
theorem State.writeBytes_byteAt (base : Nat) (bytes : List Byte) (hl : bytes.length ≤ 0x1000) (k : Nat)
    (hk : k < bytes.length) : (s.writeBytes base bytes).byteAt (effective (base + k)) = bytes[k] := by
  induction bytes generalizing s base k with
  | nil => simp at hk
  | cons b bs ih =>
    cases k with
    | zero =>
      rw [State.writeBytes, State.writeBytes_byteAt_other, State.memWrite_byteAt]
      · simp
      · intro j hj
        simp only [effective, List.length_cons] at *
        omega
    | succ k =>
      rw [State.writeBytes, show base + (k + 1) = base + 1 + k by omega, ih]
      · simp
      · simp at hl; omega
      · simpa using hk

/-- The length of a block read. -/
@[simp] theorem State.readBytes_length (base n : Nat) : (s.readBytes base n).length = n := by
  induction n generalizing base with
  | zero => rfl
  | succ n ih => simp [State.readBytes, ih]

/-- The bytes of a block read. -/
theorem State.readBytes_getElem (base n k : Nat) (h : k < (s.readBytes base n).length) :
    (s.readBytes base n)[k] = s.memRead (base + k) := by
  induction n generalizing base k with
  | zero => simp [State.readBytes] at h
  | succ n ih =>
    cases k with
    | zero => rfl
    | succ k =>
      have hk : k < (s.readBytes (base + 1) n).length := by simpa [State.readBytes] using h
      simp only [State.readBytes, List.getElem_cons_succ, ih (base + 1) k hk]
      congr 1; omega

/-! ## The checks -/

/-- The range check passes exactly in range (R44). -/
theorem checkRead_eq_none {s : State} {a : Nat} : checkRead s.cfg a = none ↔ s.inRange a := by
  unfold checkRead
  cases h : s.cfg.memOob <;> simp [State.inRange, h]

theorem checkRead_eq_some {s : State} {a : Nat} (h : ¬ s.inRange a) :
    checkRead s.cfg a = some (.fault (.memoryOutOfRange a)) := by
  unfold checkRead
  cases h' : s.cfg.memOob <;> simp_all

/-- The checks of a write pass exactly in range and where the font region allows it (R44, R45). -/
theorem checkWrite_eq_none {s : State} {a : Nat} :
    checkWrite s.cfg a = none ↔ s.inRange a ∧ s.fontAllows a := by
  unfold checkWrite
  by_cases h : s.inRange a
  · rw [checkRead_eq_none.2 h]
    cases h' : s.cfg.fontWrite <;> simp [State.fontAllows, h', h, effective]
  · simp [checkRead_eq_some h, h]

theorem checkWrite_of_not_inRange {s : State} {a : Nat} (h : ¬ s.inRange a) :
    checkWrite s.cfg a = some (.fault (.memoryOutOfRange a)) := by
  simp [checkWrite, checkRead_eq_some h]

theorem checkWrite_of_not_fontAllows {s : State} {a : Nat} (hr : s.inRange a)
    (h : ¬ s.fontAllows a) :
    checkWrite s.cfg a = some (.fault (.fontWrite (a % 0x1000))) := by
  unfold checkWrite
  rw [checkRead_eq_none.2 hr]
  cases h' : s.cfg.fontWrite <;> simp_all [effective]

/-- Every check of a block passes exactly when each address does (R46). -/
theorem firstFailure_eq_none {check : Nat → Option HaltResult} {base n : Nat} :
    firstFailure check base n = none ↔ ∀ k < n, check (base + k) = none := by
  induction n generalizing base with
  | zero => simp [firstFailure]
  | succ n ih =>
    rw [firstFailure]
    cases h : check base with
    | some r =>
      simp only [reduceCtorEq, false_iff, not_forall]
      exact ⟨0, by simp, by simp [h]⟩
    | none =>
      simp only [ih]
      constructor
      · intro H k hk
        cases k with
        | zero => exact h
        | succ k => have := H k (by omega); rwa [show base + (k + 1) = base + 1 + k by omega]
      · intro H k hk
        have := H (k + 1) (by omega)
        rwa [show base + (k + 1) = base + 1 + k by omega] at this

/-- The first failing address of a block is the one reported (R46, R139). -/
theorem firstFailure_eq_some {check : Nat → Option HaltResult} {base n k : Nat} {r : HaltResult}
    (hk : k < n) (before : ∀ j < k, check (base + j) = none) (at_k : check (base + k) = some r) :
    firstFailure check base n = some r := by
  induction n generalizing base k with
  | zero => omega
  | succ n ih =>
    rw [firstFailure]
    cases k with
    | zero => simp only [Nat.add_zero] at at_k; rw [at_k]
    | succ k =>
      have h0 : check base = none := by simpa using before 0 (by omega)
      rw [h0]
      refine ih (k := k) (by omega) (fun j hj => ?_) ?_
      · have := before (j + 1) (by omega)
        rwa [show base + (j + 1) = base + 1 + j by omega] at this
      · rwa [show base + (k + 1) = base + 1 + k by omega] at at_k

/-- Whatever a block's checks report, one of its addresses failed with it. -/
theorem firstFailure_cases {check : Nat → Option HaltResult} {base n : Nat} {r : HaltResult}
    (h : firstFailure check base n = some r) : ∃ k < n, check (base + k) = some r := by
  induction n generalizing base with
  | zero => simp [firstFailure] at h
  | succ n ih =>
    rw [firstFailure] at h
    cases h0 : check base with
    | some q => rw [h0] at h; exact ⟨0, by omega, by simpa [h0] using h⟩
    | none =>
      rw [h0] at h
      obtain ⟨k, hk, e⟩ := ih h
      exact ⟨k + 1, by omega, by rwa [show base + (k + 1) = base + 1 + k by omega]⟩

end Sys2Proof.Machine
end

