-- ==== Sys2Proof/Laws/Exec.lean ====
section
/-! SUPPORT. What the shared operations and one instruction can do, said once: the inversion lemmas that
proofs about `exec` and `step` cite instead of unfolding them. -/

namespace Sys2Proof.Machine

/-! ## Frames -/

theorem Frame.refl (regs : Nibble → Prop) (fields : List Field) (s : State) :
    Frame regs fields s s :=
  ⟨fun _ _ => rfl, fun f _ => by cases f <;> simp [Field.Same]⟩

theorem Field.Same.trans {f : Field} {s t u : State} (h : f.Same s t) (h' : f.Same t u) :
    f.Same s u := by
  cases f <;> simp only [Field.Same] at * <;> first | exact h'.trans h | intro a; exact (h' a).trans (h a)

theorem Frame.trans {regs : Nibble → Prop} {fields : List Field} {s t u : State}
    (h : Frame regs fields s t) (h' : Frame regs fields t u) : Frame regs fields s u :=
  ⟨fun r hr => (h'.1 r hr).trans (h.1 r hr), fun f hf => (h.2 f hf).trans (h'.2 f hf)⟩

/-- A larger frame allows more. -/
theorem Frame.weaken {regs regs' : Nibble → Prop} {fields fields' : List Field} {s t : State}
    (h : Frame regs fields s t) (hr : ∀ r, regs r → regs' r) (hf : ∀ f ∈ fields, f ∈ fields') :
    Frame regs' fields' s t :=
  ⟨fun r n => h.1 r (fun e => n (hr r e)), fun f n => h.2 f (fun e => n (hf f e))⟩

/-! ## The shared operations -/

/-- A key query halts, is not asked, or asks (R120). -/
theorem skipOnKey_cases {x : Nibble} {wanted : Bool} {s t : State}
    (h : skipOnKey x wanted s = .next t) :
    (∃ r, keyIndex s.cfg (s.reg x) = .halt r ∧ t = s.raise r) ∨
    (keyIndex s.cfg (s.reg x) = .notAsked ∧ t = s.skipIf (false == wanted)) ∨
    (∃ k, keyIndex s.cfg (s.reg x) = .ask k ∧
      t = s.drawn.skipIf (keyDown s.keysDown k == wanted)) := by
  unfold skipOnKey at h
  cases hk : keyIndex s.cfg (s.reg x) <;> rw [hk] at h <;> injection h with h <;> subst h <;> simp

/-- A block store halts at a failed check, or writes all its bytes (R46). -/
theorem storeBlock_cases {s t : State} {bytes : List Byte} {after : State → State}
    (h : storeBlock s bytes after = .next t) :
    (∃ r, firstFailure (checkWrite s.cfg) s.I.toNat bytes.length = some r ∧ t = s.raise r) ∨
    (firstFailure (checkWrite s.cfg) s.I.toNat bytes.length = none ∧
      t = after (s.writeBytes s.I.toNat bytes)) := by
  unfold storeBlock at h
  cases hk : firstFailure (checkWrite s.cfg) s.I.toNat bytes.length <;> rw [hk] at h <;>
    injection h with h <;> subst h <;> simp

/-- A block store whose checks pass completes. -/
theorem storeBlock_of_ok {s : State} {bytes : List Byte} {after : State → State}
    (h : ∀ k < bytes.length, s.inRange (s.I.toNat + k) ∧ s.fontAllows (s.I.toNat + k)) :
    storeBlock s bytes after = .next (after (s.writeBytes s.I.toNat bytes)) := by
  unfold storeBlock
  rw [firstFailure_eq_none.2 fun k hk => checkWrite_eq_none.2 (h k hk)]

/-- Fx55 halts at a failed check, or stores and advances `I` (R132, R131). -/
theorem execStoreRegs_cases {x : Nibble} {s t : State} (h : execStoreRegs x s = .next t) :
    (∃ r, firstFailure (checkWrite s.cfg) s.I.toNat (s.regsUpTo x).length = some r ∧
      t = s.raise r) ∨
    (firstFailure (checkWrite s.cfg) s.I.toNat (s.regsUpTo x).length = none ∧
      t = (s.writeBytes s.I.toNat (s.regsUpTo x)).setI (indexAfter s.cfg s.I x)) :=
  storeBlock_cases (after := fun t => t.setI (indexAfter s.cfg s.I x)) h

/-- A draw halts at a failed check, or draws (R116). -/
theorem execDrw_cases {x y n : Nibble} {s t : State} (h : execDrw x y n s = .next t) :
    (∃ r, firstFailure (checkRead s.cfg) s.I.toNat n.toNat = some r ∧ t = s.raise r) ∨
    (firstFailure (checkRead s.cfg) s.I.toNat n.toNat = none ∧ ∃ d b,
      t = (s.setDisp d).setReg 0xF (flag b)) := by
  unfold execDrw at h
  cases hk : firstFailure (checkRead s.cfg) s.I.toNat n.toNat <;> rw [hk] at h <;>
    injection h with h <;> subst h
  · exact .inr ⟨rfl, _, _, rfl⟩
  · exact .inl ⟨_, rfl, rfl⟩

/-- A block load changes registers alone. -/
theorem State.setRegsFrom_eq (s : State) (k : Nat) (bytes : List Byte) :
    ∃ v, s.setRegsFrom k bytes = { s with V := v } := by
  induction bytes generalizing s k with
  | nil => exact ⟨s.V, rfl⟩
  | cons b bs ih => obtain ⟨v, hv⟩ := ih (s.setReg (BitVec.ofNat 4 k) b) (k + 1); exact ⟨v, hv⟩

/-- What a register holds after a block load of at most 16 bytes (R133). -/
theorem State.setRegsFrom_reg (s : State) (k : Nat) (bytes : List Byte) (hl : k + bytes.length ≤ 16)
    (r : Nibble) :
    (s.setRegsFrom k bytes).reg r =
      if h : k ≤ r.toNat ∧ r.toNat < k + bytes.length then bytes[r.toNat - k] else s.reg r := by
  induction bytes generalizing s k with
  | nil =>
    have : ¬ (k ≤ r.toNat ∧ r.toNat < k + 0) := by omega
    simp only [State.setRegsFrom, List.length_nil, this, dif_neg, not_false_iff]
  | cons b bs ih =>
    simp only [List.length_cons] at hl
    have e : r = BitVec.ofNat 4 k ↔ r.toNat = k := by
      constructor
      · rintro rfl; simp; omega
      · intro h; exact BitVec.eq_of_toNat_eq (by simp [h]; omega)
    rw [State.setRegsFrom, ih _ (k + 1) (by omega), State.setReg_reg]
    by_cases h0 : r.toNat = k
    · rw [dif_neg (by omega), if_pos (e.2 h0), dif_pos (by simp; omega)]
      simp [h0]
    · rw [if_neg (fun h => h0 (e.1 h))]
      by_cases h1 : k + 1 ≤ r.toNat ∧ r.toNat < k + 1 + bs.length
      · rw [dif_pos h1, dif_pos (by simp; omega)]
        have : r.toNat - k = (r.toNat - (k + 1)) + 1 := by omega
        simp only [this, List.getElem_cons_succ]
      · rw [dif_neg h1, dif_neg (by simp; omega)]

/-- A block load halts at a failed check, or loads (R133). -/
theorem execLoadRegs_cases {x : Nibble} {s t : State} (h : execLoadRegs x s = .next t) :
    (∃ r, firstFailure (checkRead s.cfg) s.I.toNat (x.toNat + 1) = some r ∧ t = s.raise r) ∨
    (firstFailure (checkRead s.cfg) s.I.toNat (x.toNat + 1) = none ∧
      t = (s.setRegsFrom 0 (s.readBytes s.I.toNat (x.toNat + 1))).setI (indexAfter s.cfg s.I x)) := by
  unfold execLoadRegs at h
  cases hk : firstFailure (checkRead s.cfg) s.I.toNat (x.toNat + 1) <;> rw [hk] at h <;>
    injection h with h <;> subst h <;> simp

@[simp] theorem State.regsUpTo_length (s : State) (x : Nibble) :
    (s.regsUpTo x).length = x.toNat + 1 := by
  simp [State.regsUpTo]; omega

/-- The bytes of a block store are the registers in order (R132). -/
theorem State.regsUpTo_getElem (s : State) (x : Nibble) (k : Nat) (h : k < (s.regsUpTo x).length) :
    (s.regsUpTo x)[k] = s.reg (BitVec.ofNat 4 k) := by
  rw [State.regsUpTo_length] at h
  have : k < 16 := by omega
  simp [State.regsUpTo, State.reg, Nat.mod_eq_of_lt this]

/-- A fetch whose two addresses are in range gives the word there (R48). -/
theorem State.fetch_of_inRange {s : State} (h1 : s.inRange s.pc.toNat)
    (h2 : s.inRange (s.pc.toNat + 1)) :
    s.fetch = .ok (s.byteAt (s.pc.toNat % 0x1000) ++ s.byteAt ((s.pc.toNat + 1) % 0x1000)) := by
  unfold State.fetch
  rw [firstFailure_eq_none.2]
  · rfl
  · intro k hk
    rw [checkRead_eq_none]
    interval_cases k
    · exact h1
    · exact h2

/-- A failed read check is a range fault (R44). -/
theorem checkRead_kind {p : Params} {a : Nat} {r : HaltResult} (h : checkRead p a = some r) :
    ∃ b, r = .fault (.memoryOutOfRange b) := by
  unfold checkRead at h
  split at h <;> simp at h
  exact ⟨_, h.symm⟩

/-- A fetch that fails is a range fault (R48). -/
theorem State.fetch_error {s : State} {r : HaltResult} (h : s.fetch = .error r) :
    ∃ a, r = .fault (.memoryOutOfRange a) := by
  unfold State.fetch at h
  split at h
  · next hk =>
    cases h
    obtain ⟨k, _, hk⟩ := firstFailure_cases hk
    exact checkRead_kind hk
  · cases h

theorem flag_eq_zero_or_one (b : Bool) : flag b = 0 ∨ flag b = 1 := by cases b <;> simp [flag]

theorem flag_eq_one (b : Bool) : flag b = 1 ↔ b = true := by cases b <;> simp [flag]

/-- A bit shifted out, as a number (R110, R112). -/
theorem shiftedOut_toNat (a : Byte) :
    (shiftedOutRight a).toNat = a.toNat % 2 ∧ (shiftedOutLeft a).toNat = a.toNat / 128 := by
  revert a; decide

/-- The result goes to `V[x]`, the flag to `VF`, and the flag wins (R114). -/
theorem State.setResultThenFlag_reg (s : State) (x r : Nibble) (b f : Byte) :
    (s.setResultThenFlag x b f).reg r =
      if r = 0xF then f else if r = x then b else s.reg r := by
  simp only [State.setResultThenFlag, State.setVF_eq, State.setReg_reg]

/-- The shifted operand goes to `V[x]`, the flag to `VF`, and the shift wins (R110, R114). -/
theorem State.setFlagThenShift_reg (s : State) (x r : Nibble) (f : Byte) (g : Byte → Byte) :
    (s.setFlagThenShift x f g).reg r =
      if r = x then g (if x = 0xF ∧ s.cfg.shiftVF = .inPlace then f else s.reg x)
      else if r = 0xF then f else s.reg r := by
  simp only [State.setFlagThenShift, State.setVF_eq, State.setReg_reg, vf]
  rfl

/-- A key index in range, or taken by its low nibble, is asked for (R120). -/
theorem keyIndex_of_ask {p : Params} {v : Byte} (h : v.toNat ≤ 0xF ∨ p.keyOob = .lowNibble) :
    keyIndex p v = .ask (v.setWidth 4) := by
  unfold keyIndex
  by_cases hv : v ≤ 0xF
  · rw [if_pos hv]
  · rw [if_neg hv]
    rcases h with h | h
    · exact absurd (BitVec.le_def.2 h) hv
    · rw [h]

/-- R131 in numbers. -/
theorem indexAfter_toNat (p : Params) (i : Word) (x : Nibble) :
    (indexAfter p i x).toNat = (i.toNat + indexAdvance p.indexInc x) % 65536 := by
  cases h : p.indexInc <;> simp [indexAfter, indexAdvance, h, BitVec.toNat_add] <;> omega

/-- The cells a draw flips, each as often as it is hit (R116, R117). -/
def State.drawCells (s : State) (x y n : Nibble) : List Nat :=
  rowCells s.cfg.drawVWrap (startColumn (s.reg x)) (startRow (s.reg y))
    (s.readBytes s.I.toNat n.toNat)

theorem State.drawCells_lt (s : State) (x y n : Nibble) : ∀ k ∈ s.drawCells x y n, k < 2048 := by
  intro k hk
  refine rowCells_lt ?_ hk
  simp [startRow]
  omega

theorem State.drawCells_count (s : State) (x y n : Nibble) (k : Nat) :
    (s.drawCells x y n).count k = s.spriteHits x y n k := by
  have hl : startRow (s.reg y) + (s.readBytes s.I.toNat n.toNat).length ≤ 64 := by
    simp [startRow]
    omega
  rw [State.drawCells, rowCells_count _ _ _ _ _ hl, State.readBytes_length, State.spriteHits]
  refine Finset.sum_congr rfl fun r hr => Finset.sum_congr rfl fun b _ => ?_
  have hr' : r < n.toNat := by simpa using hr
  have : (s.readBytes s.I.toNat n.toNat).getD r 0 = s.byteAt ((s.I.toNat + r) % 0x1000) := by
    rw [List.getD_eq_getElem _ _ (by simpa using hr'), State.readBytes_getElem]
    rfl
  rw [this]
  rfl

/-- A draw whose addresses are in range plots its cells and stores the collision (R116, R118). -/
theorem execDrw_of_inRange {s : State} {x y n : Nibble}
    (h : ∀ r < n.toNat, s.inRange (s.I.toNat + r)) :
    execDrw x y n s =
      .next ((s.setDisp (plotCells ⟨s.disp, false⟩ (s.drawCells x y n)).disp).setReg 0xF
        (flag (plotCells ⟨s.disp, false⟩ (s.drawCells x y n)).hit)) := by
  unfold execDrw
  rw [firstFailure_eq_none.2 fun k hk => checkRead_eq_none.2 (h k hk)]
  simp only [drawRows_eq_plotCells]
  rfl

/-! ## One instruction -/

/-- The general registers an instruction may write (R22). -/
def Instr.writesReg : Instr → Nibble → Prop
  | .ldImm x _ | .addImm x _ | .ldReg x _ | .or x _ | .and x _ | .xor x _ | .rnd x _ | .ldDT x
  | .ldKey x => onlyReg x
  | .addReg x _ | .sub x _ | .subn x _ | .shr x _ | .shl x _ => regAndVF x
  | .drw _ _ _ => onlyReg 0xF
  | .loadRegs x => regsThrough x
  | _ => noReg

/-- The other pieces of state an instruction may write (R22). -/
def Instr.writesFields : Instr → List Field
  | .cls | .drw _ _ _ => [.disp]
  | .ret => [.pc, .sp]
  | .call _ => [.pc, .sp, .stack]
  | .jp _ | .jpV0 _ | .seImm _ _ | .sneImm _ _ | .seReg _ _ | .sneReg _ _ => [.pc]
  | .skp _ | .sknp _ | .ldKey _ => [.pc, .draws]
  | .rnd _ _ => [.draws]
  | .setDT _ => [.DT]
  | .setST _ => [.ST]
  | .ldI _ | .addI _ | .ldF _ | .loadRegs _ => [.I]
  | .ldB _ => [.mem]
  | .storeRegs _ => [.mem, .I]
  | _ => []

/-- An update of one register. -/
theorem Frame.setReg (s : State) (x : Nibble) (b : Byte) : Frame (onlyReg x) [] s (s.setReg x b) :=
  ⟨fun r hr => by rw [State.setReg_reg, if_neg (show ¬ r = x from hr)], fun f _ => by cases f <;> simp [Field.Same]⟩

theorem Frame.setPc (s : State) (a : Word) : Frame noReg [.pc] s (s.setPc a) :=
  ⟨fun r _ => by simp, fun f hf => by cases f <;> simp [Field.Same] at hf ⊢⟩

theorem Frame.setI (s : State) (a : Word) : Frame noReg [.I] s (s.setI a) :=
  ⟨fun r _ => by simp, fun f hf => by cases f <;> simp [Field.Same] at hf ⊢⟩

theorem Frame.setDT (s : State) (b : Byte) : Frame noReg [.DT] s (s.setDT b) :=
  ⟨fun r _ => by simp, fun f hf => by cases f <;> simp [Field.Same] at hf ⊢⟩

theorem Frame.setST (s : State) (b : Byte) : Frame noReg [.ST] s (s.setST b) :=
  ⟨fun r _ => by simp, fun f hf => by cases f <;> simp [Field.Same] at hf ⊢⟩

theorem Frame.setDisp (s : State) (d : Display) : Frame noReg [.disp] s (s.setDisp d) :=
  ⟨fun r _ => by simp, fun f hf => by cases f <;> simp [Field.Same] at hf ⊢⟩

theorem Frame.push (s : State) (a : Word) : Frame noReg [.sp, .stack] s (s.push a) :=
  ⟨fun r _ => by simp, fun f hf => by cases f <;> simp [Field.Same] at hf ⊢⟩

theorem Frame.pop (s : State) : Frame noReg [.sp] s s.pop :=
  ⟨fun r _ => by simp, fun f hf => by cases f <;> simp [Field.Same] at hf ⊢⟩

theorem Frame.drawn (s : State) : Frame noReg [.draws] s s.drawn :=
  ⟨fun r _ => by simp, fun f hf => by cases f <;> simp [Field.Same] at hf ⊢⟩

theorem Frame.setResultThenFlag (s : State) (x : Nibble) (b f : Byte) :
    Frame (regAndVF x) [] s (s.setResultThenFlag x b f) :=
  ((Frame.setReg s x b).weaken (fun _ h => .inl h) (by simp)).trans
    ((Frame.setReg _ 0xF f).weaken (fun _ h => .inr h) (by simp))

theorem Frame.setFlagThenShift (s : State) (x : Nibble) (f : Byte) (g : Byte → Byte) :
    Frame (regAndVF x) [] s (s.setFlagThenShift x f g) :=
  ((Frame.setReg s 0xF f).weaken (fun _ h => .inr h) (by simp)).trans
    ((Frame.setReg _ x _).weaken (fun _ h => .inl h) (by simp))

theorem Frame.writeBytes (s : State) (base : Nat) (bytes : List Byte) :
    Frame noReg [.mem] s (s.writeBytes base bytes) := by
  obtain ⟨m, hm⟩ := s.writeBytes_eq base bytes
  rw [hm]
  exact ⟨fun r _ => rfl, fun f hf => by cases f <;> simp [Field.Same] at hf ⊢⟩

/-- What an instruction can do: raise a halt and nothing else, or write only what R22 lists for it. -/
theorem exec_cases {i : Instr} {s t : State} (h : exec i s = .next t) :
    (∃ r, t = s.raise r) ∨ Frame (Instr.writesReg i) (Instr.writesFields i) s t := by
  cases i with
  | cls => injection h with h; subst h; exact .inr (Frame.setDisp _ _)
  | ret =>
    simp only [exec, execRet] at h
    split at h <;> injection h with h <;> subst h
    · exact .inl ⟨_, rfl⟩
    · exact .inr (((Frame.pop s).weaken (fun _ h => h) (by simp [Instr.writesFields])).trans
        ((Frame.setPc _ _).weaken (fun _ h => h) (by simp [Instr.writesFields])))
  | sys nnn =>
    simp only [exec, execSys] at h
    split at h <;> injection h with h <;> subst h
    · exact .inl ⟨_, rfl⟩
    · exact .inr (Frame.refl _ _ _)
  | jp nnn => injection h with h; subst h; exact .inr (Frame.setPc _ _)
  | call nnn =>
    simp only [exec, execCall] at h
    split at h <;> injection h with h <;> subst h
    · exact .inl ⟨_, rfl⟩
    · exact .inr (((Frame.push s _).weaken (fun _ h => h) (by simp [Instr.writesFields])).trans
        ((Frame.setPc _ _).weaken (fun _ h => h) (by simp [Instr.writesFields])))
  | seImm x nn => injection h with h; subst h; rw [State.skipIf_eq]; exact .inr (Frame.setPc _ _)
  | sneImm x nn => injection h with h; subst h; rw [State.skipIf_eq]; exact .inr (Frame.setPc _ _)
  | seReg x y => injection h with h; subst h; rw [State.skipIf_eq]; exact .inr (Frame.setPc _ _)
  | sneReg x y => injection h with h; subst h; rw [State.skipIf_eq]; exact .inr (Frame.setPc _ _)
  | ldImm x nn => injection h with h; subst h; exact .inr (Frame.setReg _ _ _)
  | addImm x nn => injection h with h; subst h; exact .inr (Frame.setReg _ _ _)
  | ldReg x y => injection h with h; subst h; exact .inr (Frame.setReg _ _ _)
  | or x y => injection h with h; subst h; exact .inr (Frame.setReg _ _ _)
  | and x y => injection h with h; subst h; exact .inr (Frame.setReg _ _ _)
  | xor x y => injection h with h; subst h; exact .inr (Frame.setReg _ _ _)
  | addReg x y => injection h with h; subst h; exact .inr (Frame.setResultThenFlag _ _ _ _)
  | sub x y => injection h with h; subst h; exact .inr (Frame.setResultThenFlag _ _ _ _)
  | subn x y => injection h with h; subst h; exact .inr (Frame.setResultThenFlag _ _ _ _)
  | shr x y => injection h with h; subst h; exact .inr (Frame.setFlagThenShift _ _ _ _)
  | shl x y => injection h with h; subst h; exact .inr (Frame.setFlagThenShift _ _ _ _)
  | ldI nnn => injection h with h; subst h; exact .inr (Frame.setI _ _)
  | jpV0 nnn => injection h with h; subst h; exact .inr (Frame.setPc _ _)
  | rnd x nn =>
    injection h with h; subst h
    exact .inr (((Frame.drawn s).weaken (fun _ h => h.elim) (by simp [Instr.writesFields])).trans
      ((Frame.setReg _ _ _).weaken (fun _ h => h) (by simp)))
  | drw x y n =>
    rcases execDrw_cases h with ⟨r, _, rfl⟩ | ⟨_, d, b, rfl⟩
    · exact .inl ⟨r, rfl⟩
    · exact .inr (((Frame.setDisp s d).weaken (fun _ h => h.elim) (by simp [Instr.writesFields])).trans
        ((Frame.setReg _ _ _).weaken (fun _ h => h) (by simp)))
  | skp x =>
    rcases skipOnKey_cases h with ⟨r, _, rfl⟩ | ⟨_, e⟩ | ⟨k, _, rfl⟩
    · exact .inl ⟨r, rfl⟩
    · rw [e, State.skipIf_eq]
      exact .inr ((Frame.setPc _ _).weaken (fun _ h => h) (by simp [Instr.writesFields]))
    · rw [State.skipIf_eq]
      exact .inr (((Frame.drawn s).weaken (fun _ h => h) (by simp [Instr.writesFields])).trans
        ((Frame.setPc _ _).weaken (fun _ h => h) (by simp [Instr.writesFields])))
  | sknp x =>
    rcases skipOnKey_cases h with ⟨r, _, rfl⟩ | ⟨_, e⟩ | ⟨k, _, rfl⟩
    · exact .inl ⟨r, rfl⟩
    · rw [e, State.skipIf_eq]
      exact .inr ((Frame.setPc _ _).weaken (fun _ h => h) (by simp [Instr.writesFields]))
    · rw [State.skipIf_eq]
      exact .inr (((Frame.drawn s).weaken (fun _ h => h) (by simp [Instr.writesFields])).trans
        ((Frame.setPc _ _).weaken (fun _ h => h) (by simp [Instr.writesFields])))
  | ldDT x => injection h with h; subst h; exact .inr (Frame.setReg _ _ _)
  | ldKey x =>
    injection h with h; subst h
    refine .inr (((Frame.drawn s).weaken (fun _ h => h.elim) (by simp [Instr.writesFields])).trans ?_)
    cases lowestKey s.keysDown with
    | none => exact (Frame.setPc _ _).weaken (fun _ h => h.elim) (by simp [Instr.writesFields])
    | some k => exact (Frame.setReg _ _ _).weaken (fun _ h => h) (by simp)
  | setDT x => injection h with h; subst h; exact .inr (Frame.setDT _ _)
  | setST x => injection h with h; subst h; exact .inr (Frame.setST _ _)
  | addI x => injection h with h; subst h; exact .inr (Frame.setI _ _)
  | ldF x => injection h with h; subst h; exact .inr (Frame.setI _ _)
  | ldB x =>
    rcases storeBlock_cases h with ⟨r, _, rfl⟩ | ⟨_, rfl⟩
    · exact .inl ⟨r, rfl⟩
    · exact .inr (Frame.writeBytes _ _ _)
  | storeRegs x =>
    rcases execStoreRegs_cases h with ⟨r, _, rfl⟩ | ⟨_, rfl⟩
    · exact .inl ⟨r, rfl⟩
    · exact .inr (((Frame.writeBytes s _ _).weaken (fun _ h => h) (by simp [Instr.writesFields])).trans
        ((Frame.setI _ _).weaken (fun _ h => h) (by simp [Instr.writesFields])))
  | loadRegs x =>
    rcases execLoadRegs_cases h with ⟨r, _, rfl⟩ | ⟨_, rfl⟩
    · exact .inl ⟨r, rfl⟩
    · refine .inr (Frame.trans (t := s.setRegsFrom 0 (s.readBytes s.I.toNat (x.toNat + 1))) ?_
        ((Frame.setI _ _).weaken (fun _ h => h.elim) (by simp [Instr.writesFields])))
      refine ⟨fun r hr => ?_, fun f _ => ?_⟩
      · have hr' : ¬ r.toNat ≤ x.toNat := hr
        rw [State.setRegsFrom_reg _ _ _ (by simp; omega), dif_neg (by simp; omega)]
      · obtain ⟨v, hv⟩ := s.setRegsFrom_eq 0 (s.readBytes s.I.toNat (x.toNat + 1))
        rw [hv]; cases f <;> first | rfl | exact fun _ => rfl

theorem exec_cfg {i : Instr} {s t : State} (h : exec i s = .next t) : t.cfg = s.cfg := by
  rcases exec_cases h with ⟨r, rfl⟩ | hf
  · rfl
  · exact hf.2 .cfg (by cases i <;> simp [Instr.writesFields])

/-- What an instruction can do to memory as data: nothing, or a checked block store at `I`. -/
theorem exec_mem {i : Instr} {s t : State} (h : exec i s = .next t) :
    t.mem = s.mem ∨ ∃ bytes : List Byte,
      (∀ k < bytes.length, s.inRange (s.I.toNat + k) ∧ s.fontAllows (s.I.toNat + k)) ∧
      bytes.length ≤ 16 ∧ t.mem = (s.writeBytes s.I.toNat bytes).mem := by
  cases i
  case ldB x =>
    rcases storeBlock_cases h with ⟨r, _, rfl⟩ | ⟨hc, rfl⟩
    · exact .inl rfl
    · exact .inr ⟨_, fun k hk => checkWrite_eq_none.1 (firstFailure_eq_none.1 hc k hk),
        by simp [bcdDigits], rfl⟩
  case storeRegs x =>
    rcases execStoreRegs_cases h with ⟨r, _, rfl⟩ | ⟨hc, rfl⟩
    · exact .inl rfl
    · exact .inr ⟨_, fun k hk => checkWrite_eq_none.1 (firstFailure_eq_none.1 hc k hk),
        by simp; omega, rfl⟩
  case loadRegs x =>
    rcases execLoadRegs_cases h with ⟨r, _, rfl⟩ | ⟨_, rfl⟩
    · exact .inl rfl
    · obtain ⟨v, hv⟩ := s.setRegsFrom_eq 0 (s.readBytes s.I.toNat (x.toNat + 1))
      exact .inl (by rw [hv]; rfl)
  case drw x y n => rcases execDrw_cases h with ⟨r, _, rfl⟩ | ⟨_, d, b, rfl⟩ <;> exact .inl rfl
  case skp x =>
    rcases skipOnKey_cases h with ⟨r, _, e⟩ | ⟨_, e⟩ | ⟨k, _, e⟩ <;>
      exact .inl (by rw [e]; simp)
  case sknp x =>
    rcases skipOnKey_cases h with ⟨r, _, e⟩ | ⟨_, e⟩ | ⟨k, _, e⟩ <;>
      exact .inl (by rw [e]; simp)
  case ldKey x =>
    injection h with h; subst h
    cases lowestKey s.keysDown <;> exact .inl rfl
  case sys nnn =>
    simp only [exec, execSys] at h
    split at h <;> injection h with h <;> subst h <;> exact .inl rfl
  case ret =>
    simp only [exec, execRet] at h
    split at h <;> injection h with h <;> subst h <;> exact .inl rfl
  case call nnn =>
    simp only [exec, execCall] at h
    split at h <;> injection h with h <;> subst h <;> exact .inl rfl
  all_goals
    injection h with h
    subst h
    exact .inl (by first | rfl | simp)

/-! ## One step -/

/-- What a step can do: nothing on a halted core; a halt of the fetch or at the sentinel; the halt of an
unknown word; or the execution of the decoded instruction, `pc` advanced (R86). -/
theorem step_cases {s t : State} (h : step s = .next t) :
    (∃ r, s.phase = .halted r ∧ t = s) ∨
    (s.phase = .running ∧ ∃ r, s.fetch = .error r ∧ t = s.raise r) ∨
    (s.phase = .running ∧ s.fetch = .ok 0x0000 ∧ t = s.raise .haltedNormally) ∨
    (s.phase = .running ∧ ∃ w, s.fetch = .ok w ∧ decodeWord w = none ∧
      t = (s.setPc (s.pc + 2)).raise (.unknownOpcode w)) ∨
    (s.phase = .running ∧ ∃ w i, s.fetch = .ok w ∧ decodeWord w = some i ∧
      exec i (s.setPc (s.pc + 2)) = .next t) := by
  unfold step State.frontEnd at h
  cases hp : s.phase with
  | halted r =>
    simp only [hp] at h
    injection h with h
    exact .inl ⟨r, rfl, h.symm⟩
  | running =>
    simp only [hp] at h
    cases hf : s.fetch with
    | error r =>
      simp only [hf] at h
      injection h with h
      exact .inr (.inl ⟨rfl, r, rfl, h.symm⟩)
    | ok w =>
      simp only [hf, State.issue] at h
      by_cases hw : w = 0x0000
      · rw [if_pos hw] at h
        injection h with h
        exact .inr (.inr (.inl ⟨rfl, by rw [hw], h.symm⟩))
      · rw [if_neg hw] at h
        cases hd : decodeWord w with
        | none =>
          simp only [hd] at h
          injection h with h
          exact .inr (.inr (.inr (.inl ⟨rfl, w, rfl, hd, h.symm⟩)))
        | some i =>
          simp only [hd] at h
          exact .inr (.inr (.inr (.inr ⟨rfl, w, i, rfl, hd, h⟩)))

end Sys2Proof.Machine
end

