-- ==== Sys2Proof/Laws/PerInstr.lean ====
section
/-! SUPPORT. Per instruction: its word, under its row's mask, is its row's match value (30_encoding.md
rule R66). -/

namespace Sys2Proof

theorem encA_and (op : Nibble) (nnn : Addr12) : encA op nnn &&& 0xF000 = encA op 0 := by
  apply BitVec.eq_of_getLsbD_eq
  intro i hi
  simp only [encA, BitVec.getLsbD_and, BitVec.getLsbD_append]
  interval_cases i <;> simp
theorem encXNN_and (op x : Nibble) (nn : Byte) : encXNN op x nn &&& 0xF000 = encXNN op 0 0 := by
  apply BitVec.eq_of_getLsbD_eq
  intro i hi
  simp only [encXNN, BitVec.getLsbD_and, BitVec.getLsbD_append]
  interval_cases i <;> simp
theorem encXNN_and_sub (op x : Nibble) (nn : Byte) : encXNN op x nn &&& 0xF0FF = encXNN op 0 nn := by
  apply BitVec.eq_of_getLsbD_eq
  intro i hi
  simp only [encXNN, BitVec.getLsbD_and, BitVec.getLsbD_append]
  interval_cases i <;> simp
theorem encXYN_and (op x y n : Nibble) : encXYN op x y n &&& 0xF000 = encXYN op 0 0 0 := by
  apply BitVec.eq_of_getLsbD_eq
  intro i hi
  simp only [encXYN, BitVec.getLsbD_and, BitVec.getLsbD_append]
  interval_cases i <;> simp
theorem encXYN_and_sub (op x y n : Nibble) : encXYN op x y n &&& 0xF00F = encXYN op 0 0 n := by
  apply BitVec.eq_of_getLsbD_eq
  intro i hi
  simp only [encXYN, BitVec.getLsbD_and, BitVec.getLsbD_append]
  interval_cases i <;> simp

/-- R66: a word is the instruction in a row when `w & mask = match`. -/
def Laws.OpcodeRow.Statement (i : Instr) : Prop := encode i &&& rowMask i = rowMatch i

theorem Laws.OpcodeRow.cls : Laws.OpcodeRow.Statement .cls := rfl
theorem Laws.OpcodeRow.ret : Laws.OpcodeRow.Statement .ret := rfl
theorem Laws.OpcodeRow.sys (nnn : Addr12) : Laws.OpcodeRow.Statement (.sys nnn) := encA_and _ _
theorem Laws.OpcodeRow.jp (nnn : Addr12) : Laws.OpcodeRow.Statement (.jp nnn) := encA_and _ _
theorem Laws.OpcodeRow.call (nnn : Addr12) : Laws.OpcodeRow.Statement (.call nnn) := encA_and _ _
theorem Laws.OpcodeRow.seImm (x : Nibble) (nn : Byte) : Laws.OpcodeRow.Statement (.seImm x nn) := encXNN_and _ _ _
theorem Laws.OpcodeRow.sneImm (x : Nibble) (nn : Byte) : Laws.OpcodeRow.Statement (.sneImm x nn) := encXNN_and _ _ _
theorem Laws.OpcodeRow.seReg (x : Nibble) (y : Nibble) : Laws.OpcodeRow.Statement (.seReg x y) := encXYN_and_sub _ _ _ _
theorem Laws.OpcodeRow.ldImm (x : Nibble) (nn : Byte) : Laws.OpcodeRow.Statement (.ldImm x nn) := encXNN_and _ _ _
theorem Laws.OpcodeRow.addImm (x : Nibble) (nn : Byte) : Laws.OpcodeRow.Statement (.addImm x nn) := encXNN_and _ _ _
theorem Laws.OpcodeRow.ldReg (x : Nibble) (y : Nibble) : Laws.OpcodeRow.Statement (.ldReg x y) := encXYN_and_sub _ _ _ _
theorem Laws.OpcodeRow.or (x : Nibble) (y : Nibble) : Laws.OpcodeRow.Statement (.or x y) := encXYN_and_sub _ _ _ _
theorem Laws.OpcodeRow.and (x : Nibble) (y : Nibble) : Laws.OpcodeRow.Statement (.and x y) := encXYN_and_sub _ _ _ _
theorem Laws.OpcodeRow.xor (x : Nibble) (y : Nibble) : Laws.OpcodeRow.Statement (.xor x y) := encXYN_and_sub _ _ _ _
theorem Laws.OpcodeRow.addReg (x : Nibble) (y : Nibble) : Laws.OpcodeRow.Statement (.addReg x y) := encXYN_and_sub _ _ _ _
theorem Laws.OpcodeRow.sub (x : Nibble) (y : Nibble) : Laws.OpcodeRow.Statement (.sub x y) := encXYN_and_sub _ _ _ _
theorem Laws.OpcodeRow.shr (x : Nibble) (y : Nibble) : Laws.OpcodeRow.Statement (.shr x y) := encXYN_and_sub _ _ _ _
theorem Laws.OpcodeRow.subn (x : Nibble) (y : Nibble) : Laws.OpcodeRow.Statement (.subn x y) := encXYN_and_sub _ _ _ _
theorem Laws.OpcodeRow.shl (x : Nibble) (y : Nibble) : Laws.OpcodeRow.Statement (.shl x y) := encXYN_and_sub _ _ _ _
theorem Laws.OpcodeRow.sneReg (x : Nibble) (y : Nibble) : Laws.OpcodeRow.Statement (.sneReg x y) := encXYN_and_sub _ _ _ _
theorem Laws.OpcodeRow.ldI (nnn : Addr12) : Laws.OpcodeRow.Statement (.ldI nnn) := encA_and _ _
theorem Laws.OpcodeRow.jpV0 (nnn : Addr12) : Laws.OpcodeRow.Statement (.jpV0 nnn) := encA_and _ _
theorem Laws.OpcodeRow.rnd (x : Nibble) (nn : Byte) : Laws.OpcodeRow.Statement (.rnd x nn) := encXNN_and _ _ _
theorem Laws.OpcodeRow.drw (x : Nibble) (y : Nibble) (n : Nibble) : Laws.OpcodeRow.Statement (.drw x y n) := encXYN_and _ _ _ _
theorem Laws.OpcodeRow.skp (x : Nibble) : Laws.OpcodeRow.Statement (.skp x) := encXNN_and_sub _ _ _
theorem Laws.OpcodeRow.sknp (x : Nibble) : Laws.OpcodeRow.Statement (.sknp x) := encXNN_and_sub _ _ _
theorem Laws.OpcodeRow.ldDT (x : Nibble) : Laws.OpcodeRow.Statement (.ldDT x) := encXNN_and_sub _ _ _
theorem Laws.OpcodeRow.ldKey (x : Nibble) : Laws.OpcodeRow.Statement (.ldKey x) := encXNN_and_sub _ _ _
theorem Laws.OpcodeRow.setDT (x : Nibble) : Laws.OpcodeRow.Statement (.setDT x) := encXNN_and_sub _ _ _
theorem Laws.OpcodeRow.setST (x : Nibble) : Laws.OpcodeRow.Statement (.setST x) := encXNN_and_sub _ _ _
theorem Laws.OpcodeRow.addI (x : Nibble) : Laws.OpcodeRow.Statement (.addI x) := encXNN_and_sub _ _ _
theorem Laws.OpcodeRow.ldF (x : Nibble) : Laws.OpcodeRow.Statement (.ldF x) := encXNN_and_sub _ _ _
theorem Laws.OpcodeRow.ldB (x : Nibble) : Laws.OpcodeRow.Statement (.ldB x) := encXNN_and_sub _ _ _
theorem Laws.OpcodeRow.storeRegs (x : Nibble) : Laws.OpcodeRow.Statement (.storeRegs x) := encXNN_and_sub _ _ _
theorem Laws.OpcodeRow.loadRegs (x : Nibble) : Laws.OpcodeRow.Statement (.loadRegs x) := encXNN_and_sub _ _ _

/-- R66 for every instruction at once. -/
theorem encode_and_rowMask (i : Instr) : encode i &&& rowMask i = rowMatch i := by
  cases i with
  | cls => exact Laws.OpcodeRow.cls
  | ret => exact Laws.OpcodeRow.ret
  | sys nnn => exact Laws.OpcodeRow.sys nnn
  | jp nnn => exact Laws.OpcodeRow.jp nnn
  | call nnn => exact Laws.OpcodeRow.call nnn
  | seImm x nn => exact Laws.OpcodeRow.seImm x nn
  | sneImm x nn => exact Laws.OpcodeRow.sneImm x nn
  | seReg x y => exact Laws.OpcodeRow.seReg x y
  | ldImm x nn => exact Laws.OpcodeRow.ldImm x nn
  | addImm x nn => exact Laws.OpcodeRow.addImm x nn
  | ldReg x y => exact Laws.OpcodeRow.ldReg x y
  | or x y => exact Laws.OpcodeRow.or x y
  | and x y => exact Laws.OpcodeRow.and x y
  | xor x y => exact Laws.OpcodeRow.xor x y
  | addReg x y => exact Laws.OpcodeRow.addReg x y
  | sub x y => exact Laws.OpcodeRow.sub x y
  | shr x y => exact Laws.OpcodeRow.shr x y
  | subn x y => exact Laws.OpcodeRow.subn x y
  | shl x y => exact Laws.OpcodeRow.shl x y
  | sneReg x y => exact Laws.OpcodeRow.sneReg x y
  | ldI nnn => exact Laws.OpcodeRow.ldI nnn
  | jpV0 nnn => exact Laws.OpcodeRow.jpV0 nnn
  | rnd x nn => exact Laws.OpcodeRow.rnd x nn
  | drw x y n => exact Laws.OpcodeRow.drw x y n
  | skp x => exact Laws.OpcodeRow.skp x
  | sknp x => exact Laws.OpcodeRow.sknp x
  | ldDT x => exact Laws.OpcodeRow.ldDT x
  | ldKey x => exact Laws.OpcodeRow.ldKey x
  | setDT x => exact Laws.OpcodeRow.setDT x
  | setST x => exact Laws.OpcodeRow.setST x
  | addI x => exact Laws.OpcodeRow.addI x
  | ldF x => exact Laws.OpcodeRow.ldF x
  | ldB x => exact Laws.OpcodeRow.ldB x
  | storeRegs x => exact Laws.OpcodeRow.storeRegs x
  | loadRegs x => exact Laws.OpcodeRow.loadRegs x

end Sys2Proof
end

