-- ==== Sys2Proof/Tests/Slice0.lean ====
section
/-! SUPPORT. Tests: the well-formedness smoke test, words written out from the formats of
30_encoding.md, one-step vectors of 95_test_vectors.md, and a witness for the hypotheses of every
obligation that has some. -/

namespace Sys2Proof.Tests

open Sys2Proof Sys2Proof.Machine

/-! ## Well-formedness -/

theorem test_wellFormed_refuses_sentinel : (Instr.sys 0x000).wellFormed = false := by decide
theorem test_wellFormed_refuses_cls_word : (Instr.sys 0x0E0).wellFormed = false := by decide
theorem test_wellFormed_refuses_ret_word : (Instr.sys 0x0EE).wellFormed = false := by decide
theorem test_wellFormed_accepts_sys : (Instr.sys 0x123).wellFormed = true := by decide

/-! ## Decoding: every row of R66, its word written out bit by bit from the formats of R62 -/

theorem test_decode_cls : decodeWord 0b0000_0000_1110_0000 = some .cls := by decide
theorem test_decode_ret : decodeWord 0b0000_0000_1110_1110 = some .ret := by decide
theorem test_decode_sys : decodeWord 0b0000_0001_0010_0011 = some (.sys 0x123) := by decide
theorem test_decode_jp : decodeWord 0b0001_1010_1011_1100 = some (.jp 0xABC) := by decide
theorem test_decode_call : decodeWord 0b0010_0011_0001_0010 = some (.call 0x312) := by decide
theorem test_decode_seImm : decodeWord 0b0011_0101_1100_0110 = some (.seImm 0x5 0xC6) := by decide
theorem test_decode_sneImm : decodeWord 0b0100_1001_0011_1010 = some (.sneImm 0x9 0x3A) := by decide
theorem test_decode_seReg : decodeWord 0b0101_0011_1010_0000 = some (.seReg 0x3 0xA) := by decide
theorem test_decode_ldImm : decodeWord 0b0110_1110_0000_0001 = some (.ldImm 0xE 0x01) := by decide
theorem test_decode_addImm : decodeWord 0b0111_0001_1000_0000 = some (.addImm 0x1 0x80) := by decide
theorem test_decode_ldReg : decodeWord 0b1000_0001_0010_0000 = some (.ldReg 0x1 0x2) := by decide
theorem test_decode_or : decodeWord 0b1000_0001_0010_0001 = some (.or 0x1 0x2) := by decide
theorem test_decode_and : decodeWord 0b1000_0001_0010_0010 = some (.and 0x1 0x2) := by decide
theorem test_decode_xor : decodeWord 0b1000_0001_0010_0011 = some (.xor 0x1 0x2) := by decide
theorem test_decode_addReg : decodeWord 0b1000_0000_0001_0100 = some (.addReg 0x0 0x1) := by decide
theorem test_decode_sub : decodeWord 0b1000_0110_1011_0101 = some (.sub 0x6 0xB) := by decide
theorem test_decode_shr : decodeWord 0b1000_0110_1011_0110 = some (.shr 0x6 0xB) := by decide
theorem test_decode_subn : decodeWord 0b1000_0110_1011_0111 = some (.subn 0x6 0xB) := by decide
theorem test_decode_shl : decodeWord 0b1000_0110_1011_1110 = some (.shl 0x6 0xB) := by decide
theorem test_decode_sneReg : decodeWord 0b1001_1100_0011_0000 = some (.sneReg 0xC 0x3) := by decide
theorem test_decode_ldI : decodeWord 0b1010_1111_0000_0001 = some (.ldI 0xF01) := by decide
theorem test_decode_jpV0 : decodeWord 0b1011_0001_0000_1111 = some (.jpV0 0x10F) := by decide
theorem test_decode_rnd : decodeWord 0b1100_1000_0111_0011 = some (.rnd 0x8 0x73) := by decide
theorem test_decode_drw : decodeWord 0b1101_0001_0010_0101 = some (.drw 0x1 0x2 0x5) := by decide
theorem test_decode_skp : decodeWord 0b1110_0101_1001_1110 = some (.skp 0x5) := by decide
theorem test_decode_sknp : decodeWord 0b1110_0101_1010_0001 = some (.sknp 0x5) := by decide
theorem test_decode_ldDT : decodeWord 0b1111_0010_0000_0111 = some (.ldDT 0x2) := by decide
theorem test_decode_ldKey : decodeWord 0b1111_0010_0000_1010 = some (.ldKey 0x2) := by decide
theorem test_decode_setDT : decodeWord 0b1111_0010_0001_0101 = some (.setDT 0x2) := by decide
theorem test_decode_setST : decodeWord 0b1111_0010_0001_1000 = some (.setST 0x2) := by decide
theorem test_decode_addI : decodeWord 0b1111_0010_0001_1110 = some (.addI 0x2) := by decide
theorem test_decode_ldF : decodeWord 0b1111_0010_0010_1001 = some (.ldF 0x2) := by decide
theorem test_decode_ldB : decodeWord 0b1111_0010_0011_0011 = some (.ldB 0x2) := by decide
theorem test_decode_storeRegs : decodeWord 0b1111_0010_0101_0101 = some (.storeRegs 0x2) := by decide
theorem test_decode_loadRegs : decodeWord 0b1111_0010_0110_0101 = some (.loadRegs 0x2) := by decide

/-- R68's rejections, by name. -/
theorem test_decode_rejects_by_name :
    decodeBytes [0x51, 0x21] = .error (.unknownOpcode 0x5121) ∧
      decodeBytes [0x60] = .error .truncated := by decide

/-- The bytes after an instruction are handed back (R60). -/
theorem test_decode_leaves_the_rest :
    decodeBytes [0x60, 0x05, 0x12] = .ok (.ldImm 0x0 0x05, [0x12]) := by decide

/-- R76's two worked encodings. -/
theorem test_encode_examples :
    encode (.addReg 0x0 0x1) = 0x8014 ∧ encode (.drw 0x1 0x2 0x5) = 0xD125 := by decide

/-! ## Memory -/

/-- A byte equal to the constructed one is not listed; the addresses rise. -/
theorem test_memory_write_is_canonical :
    Memory.write defaultFont (Memory.write defaultFont [(0x300, 7)] 0x200 5) 0x300 0 = [(0x200, 5)] ∧
      Memory.write defaultFont [] 0x000 0xF0 = [] := by decide

theorem test_memory_wf_refuses : ¬ Memory.wf defaultFont [(0x300, 1), (0x200, 1)] := by decide

theorem test_memory_wf_refuses_the_constructed_byte : ¬ Memory.wf defaultFont [(0x200, 0)] := by
  decide

/-! ## One step of each instruction, from 95_test_vectors.md -/

/-- The parameters of the vectors: R11's defaults, with a setting for the two OPEN ones. -/
def params : Params := { defaultParams with indexInc := .none, shiftVF := .operandCaptured }

/-- The start state of every vector (R38). -/
def start : State := State.construct params

/-- `start` under other parameters. -/
def startWith (p : Params) : State := State.construct p

/-- One step on the word `w`. -/
def runWord (s : State) (w : Nat) : Option State :=
  match step (s.withFetchWord 16 w) with
  | .next t => some t
  | _ => none

/-- L1-7: load immediate 5. -/
theorem test_ldImm : (runWord start 0x6005).map (fun t => (t.reg 0, t.pc)) = some (0x05, 0x202) := by
  decide

/-- L1-8. -/
theorem test_cls :
    (runWord { start with disp := flipCell (flipCell start.disp 0) 2047 } 0x00E0).map
      (fun t => (t.disp == darkDisplay, t.pc)) = some (true, 0x202) := by decide

/-- CF-7. -/
theorem test_ret :
    (runWord { start with pc := 0x300, sp := 1, stack := start.stack.set 1 0x202 } 0x00EE).map
      (fun t => (t.pc, t.sp, t.stack[1])) = some (0x202, 0, 0x202) := by decide

/-- CF-8. -/
theorem test_ret_underflow :
    (runWord start 0x00EE).map (fun t => (t.pc, t.result)) =
      some (0x202, .halt .stackUnderflow) := by decide

/-- PV-8. -/
theorem test_sys :
    (runWord start 0x0123).map (fun t => (t.pc, t.result)) =
      some (0x202, .halt (.unknownOpcode 0x0123)) := by decide

/-- PV-8, under the other policy. -/
theorem test_sys_nop :
    (runWord (startWith { params with sys := .nop }) 0x0123).map (fun t => (t.pc, t.result)) =
      some (0x202, .continued) := by decide

/-- CF-1. -/
theorem test_jp : (runWord start 0x1234).map (fun t => t.pc) = some 0x234 := by decide

/-- CF-6. -/
theorem test_call :
    (runWord start 0x2300).map (fun t => (t.pc, t.sp, t.stack[1])) = some (0x300, 1, 0x202) := by
  decide

/-- CF-9. -/
theorem test_call_overflow :
    (runWord { start with sp := 15 } 0x2300).map (fun t => (t.pc, t.sp, t.result)) =
      some (0x202, 15, .halt .stackOverflow) := by decide

/-- CF-11. -/
theorem test_seImm : (runWord (start.setReg 3 0x42) 0x3342).map (fun t => t.pc) = some 0x204 := by
  decide

/-- CF-12. -/
theorem test_seImm_untaken :
    (runWord (start.setReg 3 0x41) 0x3342).map (fun t => t.pc) = some 0x202 := by decide

/-- CF-13. -/
theorem test_sneImm : (runWord (start.setReg 3 0x41) 0x4342).map (fun t => t.pc) = some 0x204 := by
  decide

/-- CF-14. -/
theorem test_sneImm_untaken :
    (runWord (start.setReg 3 0x42) 0x4342).map (fun t => t.pc) = some 0x202 := by decide

/-- CF-16. -/
theorem test_seReg :
    (runWord ((start.setReg 1 7).setReg 2 8) 0x5120).map (fun t => t.pc) = some 0x202 := by decide

/-- CF-18. -/
theorem test_sneReg :
    (runWord ((start.setReg 1 7).setReg 2 8) 0x9120).map (fun t => t.pc) = some 0x204 := by decide

/-- AL-4. -/
theorem test_addImm :
    (runWord ((start.setReg 0 0xFF).setVF 0x55) 0x7001).map (fun t => (t.reg 0, t.reg 0xF)) =
      some (0x00, 0x55) := by decide

/-- AL-6. -/
theorem test_ldReg : (runWord (start.setReg 2 0x7A) 0x8120).map (fun t => t.reg 1) = some 0x7A := by
  decide

/-- AL-7. -/
theorem test_or :
    (runWord (((start.setReg 0 0xF0).setReg 1 0x0F).setVF 1) 0x8011).map
      (fun t => (t.reg 0, t.reg 0xF)) = some (0xFF, 1) := by decide

/-- AL-8. -/
theorem test_and :
    (runWord ((start.setReg 0 0xF0).setReg 1 0x3C) 0x8012).map (fun t => t.reg 0) = some 0x30 := by
  decide

/-- AL-9. -/
theorem test_xor :
    (runWord ((start.setReg 0 0xF0).setReg 1 0x3C) 0x8013).map (fun t => t.reg 0) = some 0xCC := by
  decide

/-- L1-2, first row. -/
theorem test_addReg :
    (runWord ((start.setReg 0 0x08).setReg 1 0xFF) 0x8014).map (fun t => (t.reg 0, t.reg 0xF)) =
      some (0x07, 1) := by decide

/-- AL-12: the flag wins over the sum. -/
theorem test_addReg_into_VF :
    (runWord ((start.setVF 0xFF).setReg 1 0x01) 0x8F14).map (fun t => t.reg 0xF) = some 1 := by
  decide

/-- L1-3, second row. -/
theorem test_sub :
    (runWord ((start.setReg 0 0x05).setReg 1 0x07) 0x8015).map (fun t => (t.reg 0, t.reg 0xF)) =
      some (0xFE, 0) := by decide

/-- AL-17. -/
theorem test_subn :
    (runWord ((start.setReg 0 0x05).setReg 1 0x07) 0x8017).map (fun t => (t.reg 0, t.reg 0xF)) =
      some (0x02, 1) := by decide

/-- AL-20. -/
theorem test_subn_into_VF :
    (runWord ((start.setVF 0x05).setReg 1 0x07) 0x8F17).map (fun t => t.reg 0xF) = some 1 := by
  decide

/-- L1-4, with `V1` not read. -/
theorem test_shr :
    (runWord ((start.setReg 0 0x05).setReg 1 0xAA) 0x8016).map (fun t => (t.reg 0, t.reg 0xF)) =
      some (0x02, 1) := by decide

/-- AL-26, both settings. -/
theorem test_shr_VF :
    (runWord (start.setVF 0x05) 0x8F06).map (fun t => t.reg 0xF) = some 0x02 ∧
    (runWord ((startWith { params with shiftVF := .inPlace }).setVF 0x05) 0x8F06).map
      (fun t => t.reg 0xF) = some 0x00 := by decide

/-- AL-21. -/
theorem test_shl :
    (runWord (start.setReg 0 0x81) 0x800E).map (fun t => (t.reg 0, t.reg 0xF)) = some (0x02, 1) := by
  decide

/-- AL-30, both settings. -/
theorem test_shl_VF :
    (runWord (start.setVF 0xC0) 0x8F0E).map (fun t => t.reg 0xF) = some 0x80 ∧
    (runWord ((startWith { params with shiftVF := .inPlace }).setVF 0xC0) 0x8F0E).map
      (fun t => t.reg 0xF) = some 0x02 := by decide

/-- IM-1. -/
theorem test_ldI : (runWord start 0xA300).map (fun t => t.I) = some 0x300 := by decide

/-- CF-4. -/
theorem test_jpV0 : (runWord (start.setReg 0 0xFF) 0xBFFF).map (fun t => t.pc) = some 0x10FE := by
  decide

/-- AL-33: any draw. -/
theorem test_rnd_mask_0 : ∃ t, exec (.rnd 0x0 0x00) (start.setReg 0 0x77) = .next t ∧ t.reg 0 = 0 :=
  ⟨_, rfl, by simp⟩

/-- R113: the byte drawn is the answer to this draw. -/
theorem test_rnd_draws :
    (runWord start 0xC0FF).map (fun t => (t.reg 0, t.draws)) =
      some (Config.randByte 0 &&& 0xFF, 1) := by rfl

/-- The cells of L1-5 after one draw of glyph 0, and the flag of the second. -/
theorem test_drw_glyph :
    (runWord start 0xD125).map (fun t => (t.disp.toList.take 6, t.reg 0xF)) =
      some ([0b1111, 0b1001, 0b1001, 0b1001, 0b1111, 0], 0) := by decide

/-- The start state of DP-8 under an edge policy. -/
def edgeState (v : DrawVWrap) : State :=
  (((startWith { params with drawVWrap := v }).writeBytes 0x300 [0x80, 0x80, 0x80, 0x80]).setI
    0x300).setReg 2 0x1E

/-- DP-8, under the three edge policies: cells (0, 30), (0, 31), (0, 0), (0, 1), and `VF`. -/
theorem test_drw_bottom_edge :
    [DrawVWrap.offsetMod64, .offsetMod2048, .clip].map (fun v =>
      (runWord (edgeState v) 0xD124).map (fun t => (t.pixelLit 0 30, t.pixelLit 0 31,
        t.pixelLit 0 0, t.pixelLit 0 1, t.reg 0xF))) =
    [some (true, true, false, false, 1), some (true, true, true, true, 0),
      some (true, true, false, false, 0)] := by decide

/-- KT-5. -/
theorem test_skp_out_of_range :
    (runWord (start.setReg 5 0x10) 0xE59E).map (fun t => (t.pc, t.result)) =
      some (0x202, .halt (.fault (.keyIndexOutOfRange 0x10))) := by decide

/-- KT-1, KT-2: the answer decides. -/
theorem test_skp_asks :
    exec (.skp 5) (start.setReg 5 0x0A) =
      .next ((start.setReg 5 0x0A).drawn.skipIf (keyDown (Config.keysDown 0) 0xA == true)) := rfl

/-- KT-7: a key counted as not down, and no draw. -/
theorem test_sknp_not_down :
    (runWord ((startWith { params with keyOob := .notDown }).setReg 5 0x10) 0xE5A1).map
      (fun t => (t.pc, t.draws)) = some (0x204, 0) := by decide

/-- KT-9 to KT-11: the lowest of keys 3 and 7; key 0; no key. -/
theorem test_ldKey_answers :
    lowestKey 0b10001000 = some 3 ∧ lowestKey 0b1 = some 0 ∧ lowestKey 0 = none := by decide

/-- KT-9 and KT-11: what the answer does, from `pc = 0x202`. -/
theorem test_ldKey_effects :
    ((start.setPc 0x202).keyAnswer 2 (some 3)).reg 2 = 3 ∧
      ((start.setPc 0x202).keyAnswer 2 none).pc = 0x200 := by decide

/-- KT-12. -/
theorem test_ldDT : (runWord (start.setDT 0x3C) 0xF107).map (fun t => t.reg 1) = some 0x3C := by decide

/-- KT-13. -/
theorem test_setDT :
    (runWord (start.setReg 1 0x3C) 0xF115).map (fun t => (t.DT, t.ST)) = some (0x3C, 0) := by decide

/-- KT-14. -/
theorem test_setST :
    (runWord (start.setReg 1 0x05) 0xF118).map (fun t => (t.DT, t.ST)) = some (0, 0x05) := by decide

/-- IM-2. -/
theorem test_addI :
    (runWord ((start.setI 0x0FFF).setReg 0 1) 0xF01E).map (fun t => (t.I, t.reg 0xF)) =
      some (0x1000, 0) := by decide

/-- IM-7, both settings. -/
theorem test_ldF :
    (runWord (start.setReg 0 0xFF) 0xF029).map (fun t => t.I) = some 0x4FB ∧
    (runWord ((startWith { params with fontDigit := .lowNibble }).setReg 0 0xFF) 0xF029).map
      (fun t => t.I) = some 0x04B := by decide

/-- IM-8. -/
theorem test_ldB :
    (runWord ((start.setI 0x300).setReg 0 0xFE) 0xF033).map
      (fun t => (t.byteAt 0x300, t.byteAt 0x301, t.byteAt 0x302, t.I)) =
      some (0x02, 0x05, 0x04, 0x300) := by decide

/-- IM-12: the third address wraps into the font. -/
theorem test_ldB_wraps_into_the_font :
    (runWord (((startWith { params with memOob := .wrap12 }).setI 0xFFE).setReg 0 7) 0xF033).map
      (fun t => (t.result, t.byteAt 0xFFE)) = some (.halt (.fault (.fontWrite 0x000)), 0) := by decide

/-- IM-13, under the three index policies. -/
theorem test_storeRegs :
    [IndexInc.none, .xPlus1, .x].map (fun v =>
      (runWord ((((startWith { params with indexInc := v }).setI 0x300).setReg 0 1).setReg 1
        2 |>.setReg 2 3) 0xF255).map
          (fun t => (t.byteAt 0x300, t.byteAt 0x301, t.byteAt 0x302, t.I))) =
    [some (1, 2, 3, 0x300), some (1, 2, 3, 0x303), some (1, 2, 3, 0x302)] := by decide

/-- IM-16. -/
theorem test_storeRegs_out_of_range :
    (runWord (start.setI 0xFF1) 0xFF55).map (fun t => (t.pc, t.I, t.result)) =
      some (0x202, 0xFF1, .halt (.fault (.memoryOutOfRange 0x1000))) := by decide

/-- IM-18. -/
theorem test_loadRegs :
    (runWord (((start.writeBytes 0x300 [2, 5, 4]).setI 0x300).setReg 3 9) 0xF265).map
      (fun t => (t.reg 0, t.reg 1, t.reg 2, t.reg 3)) = some (2, 5, 4, 9) := by decide

/-- IM-21. -/
theorem test_loadRegs_out_of_range :
    (runWord ((start.setI 0xFFF).setReg 0 7) 0xF165).map (fun t => (t.reg 0, t.result)) =
      some (7, .halt (.fault (.memoryOutOfRange 0x1000))) := by decide

/-! ## The step and the host -/

/-- PV-1. -/
theorem test_sentinel :
    (runWord start 0x0000).map (fun t => (t.pc, t.result)) = some (0x200, .halt .haltedNormally) := by
  decide

/-- PV-2. -/
theorem test_unknown :
    (runWord start 0x5121).map (fun t => (t.pc, t.result)) =
      some (0x202, .halt (.unknownOpcode 0x5121)) := by decide

/-- PV-10: a fetch that wraps, `mem[0xFFF] :: mem[0x000]`. -/
theorem test_fetch_wraps :
    { startWith { params with memOob := .wrap12 } with pc := 0xFFF }.fetch = .ok 0x00F0 := by decide

/-- PV-12: an odd `pc`. -/
theorem test_fetch_odd :
    (runWord (start.setPc 0x201) 0x6005).map (fun t => (t.reg 0, t.pc)) = some (0x05, 0x203) := by
  decide

/-- KT-16, KT-17. -/
theorem test_tick :
    ((start.setDT 1).tick.DT, (start.setDT 1).tick.ST, (start.setST 2).tick.ST) = (0, 0, 1) := by
  decide

/-- LB-2: an odd image. -/
theorem test_load_odd :
    (match boot params [0x60] with
      | .ok s => some (s.byteAt 0x200, s.byteAt 0x201, s.byteAt 0x000)
      | .error _ => none) = some (0x60, 0x00, 0xF0) := by decide

/-- LB-4: 3585 bytes. -/
theorem test_load_too_long :
    start.load (List.replicate 3585 0x12) = .error (.tooLong 3585) := by
  have h : maxImage < (List.replicate 3585 (0x12 : Byte)).length := by
    rw [List.length_replicate]; decide
  rw [State.load, if_pos h, List.length_replicate]

/-- R33: glyph 0 and the last byte of glyph F. -/
theorem test_font : (start.byteAt 0x000, start.byteAt 0x001, start.byteAt 0x04F) = (0xF0, 0x90, 0x80) := by
  decide

/-! ## Witnesses: a state and operands that meet the hypotheses of each obligation, clause by clause -/

/-- `start` under `P_MEM_OOB = wrap_12`. -/
def wrapped : State := startWith { params with memOob := .wrap12 }

/-- `start` under `P_FONT_WRITE = write`. -/
def fontWritable : State := startWith { params with fontWrite := .write }

/-- `start` under a setting of `P_KEY_OOB`. -/
def keyState (v : KeyOob) : State := startWith { params with keyOob := v }

/-- `start` with the word `w` at `pc`. -/
def placed (s : State) (w : Nat) : State := s.withFetchWord 16 w

theorem test_witness_DecodeOfEncode :
    (Instr.sys 0x001).WellFormed ∧ (Instr.sys 0xFFF).WellFormed ∧ (Instr.loadRegs 0xF).WellFormed := by
  decide

theorem test_witness_EncodeOfDecode :
    decodeWord 0x0001 = some (.sys 0x001) ∧ decodeWord 0xFF65 = some (.loadRegs 0xF) := by decide

theorem test_witness_StepRunsTheDecodedInstruction :
    let s := placed start 0x6005
    s.phase = .running ∧ s.inRange s.pc.toNat ∧ s.inRange (s.pc.toNat + 1) ∧
      decodeWord (s.byteAt (s.pc.toNat % 0x1000) ++ s.byteAt ((s.pc.toNat + 1) % 0x1000)) =
        some (.ldImm 0 5) := by decide

/-- The same at the last `pc` of wrap_12, 0xFFFF: the bytes of 0xFFF and 0x000. -/
theorem test_witness_StepRunsTheDecodedInstruction_wrapped :
    let s := (wrapped.memWrite 0xFFF 0x60).setPc 0xFFFF
    s.phase = .running ∧ s.inRange s.pc.toNat ∧ s.inRange (s.pc.toNat + 1) ∧
      decodeWord (s.byteAt (s.pc.toNat % 0x1000) ++ s.byteAt ((s.pc.toNat + 1) % 0x1000)) =
        some (.ldImm 0 0xF0) := by decide

theorem test_witness_SentinelHaltsWithoutMutation :
    start.phase = .running ∧ start.inRange start.pc.toNat ∧ start.inRange (start.pc.toNat + 1) ∧
      start.byteAt (start.pc.toNat % 0x1000) ++ start.byteAt ((start.pc.toNat + 1) % 0x1000) =
        (0x0000 : BitVec 16) := by decide

theorem test_witness_UnknownOpcodeHaltsWithTheWord :
    let s := placed (start.setPc 0xFFE) 0x5121
    s.phase = .running ∧ s.inRange s.pc.toNat ∧ s.inRange (s.pc.toNat + 1) ∧
      s.byteAt (s.pc.toNat % 0x1000) ++ s.byteAt ((s.pc.toNat + 1) % 0x1000) = (0x5121 : BitVec 16) ∧
      (0x5121 : Word) ≠ 0x0000 ∧ decodeWord 0x5121 = none := by decide

theorem test_witness_StepOnAHaltedCoreChangesNothing :
    (start.raise .stackOverflow).phase = .halted .stackOverflow := by decide

theorem test_witness_FetchOutOfRangeHaltsInPlace :
    start.phase = .running ∧ start.cfg.memOob = .fault ∧ 0xFFF ≤ (start.setPc 0xFFF).pc.toNat ∧
      0xFFF ≤ (start.setPc 0x1000).pc.toNat ∧ 0xFFF ≤ (start.setPc 0xFFFF).pc.toNat := by decide

theorem test_witness_FetchIsBigEndian :
    (start.setPc 0xFFE).inRange 0xFFE ∧ (start.setPc 0xFFE).inRange 0xFFF ∧
      (wrapped.setPc 0xFFFF).inRange 0xFFFF ∧ (wrapped.setPc 0xFFFF).inRange 0x10000 := by decide

/-- Each clause: the sentinel, an unknown word, and a range fault of a fetch and of an instruction. -/
theorem test_witness_HaltsArePrecise :
    (start.phase = .running ∧ ∃ t, step start = .next t ∧ t.phase = .halted .haltedNormally) ∧
    (∃ t, step (placed start 0x5121) = .next t ∧ t.phase = .halted (.unknownOpcode 0x5121)) ∧
    (∃ t, step (start.setPc 0xFFF) = .next t ∧
      t.phase = .halted (.fault (.memoryOutOfRange 0x1000))) ∧
    ∃ t, step ((placed start 0xF165).setI 0xFFF) = .next t ∧
      t.phase = .halted (.fault (.memoryOutOfRange 0x1000)) :=
  ⟨⟨rfl, _, rfl, rfl⟩, ⟨_, rfl, rfl⟩, ⟨_, rfl, rfl⟩, ⟨_, rfl, rfl⟩⟩

theorem test_witness_NoMoveLeavesAHalt :
    (start.raise .stackUnderflow).phase = .halted .stackUnderflow ∧
      ∃ t, runMoves [.step, .tick, .redraw, .audio, .step] (start.raise .stackUnderflow) = .next t :=
  ⟨rfl, _, rfl⟩

/-- A state with memory listed, whose step stores. -/
theorem test_witness_StepKeepsMemoryCanonical :
    ((placed start 0xF033).setI 0x300).MemoryCanonical ∧
      ∃ t, step ((placed start 0xF033).setI 0x300) = .next t :=
  ⟨by decide, _, rfl⟩

theorem test_witness_StepKeepsTheFont :
    start.cfg.fontWrite = .fault ∧ (placed start 0xF033).FontIntact ∧
      ∃ t, step ((placed start 0xF033).setI 0x050) = .next t :=
  ⟨rfl, by unfold State.FontIntact; decide, _, rfl⟩

theorem test_witness_StepKeepsPcBounded :
    ((placed start 0xBFFF).setReg 0 0xFF).PcBounded ∧
      ∃ t, step ((placed start 0xBFFF).setReg 0 0xFF) = .next t :=
  ⟨by unfold State.PcBounded; decide, _, rfl⟩

theorem test_witness_ParametersAreFixedForARun :
    ∃ t, runMoves [.step, .tick, .step] (placed start 0x6005) = .next t := ⟨_, rfl⟩

theorem test_witness_OnlyCallAndReturnWriteTheStack :
    exec (.jp 0x300) start = .next (start.setPc 0x300) ∧ Instr.jp 0x300 ≠ .ret ∧
      ∀ nnn, Instr.jp 0x300 ≠ .call nnn := ⟨rfl, by decide, by simp⟩

/-- A step that pushes and one that pops. -/
theorem test_witness_StackPointerNeverWraps :
    (∃ t, step (placed start 0x2300) = .next t) ∧
      ∃ t, step { placed start 0x00EE with sp := 1 } = .next t := ⟨⟨_, rfl⟩, ⟨_, rfl⟩⟩

theorem test_witness_OnlyClearAndDrawWriteTheDisplay :
    exec (.jp 0x300) start = .next (start.setPc 0x300) ∧ Instr.jp 0x300 ≠ .cls ∧
      ∀ x y n, Instr.jp 0x300 ≠ .drw x y n := ⟨rfl, by decide, by simp⟩

theorem test_witness_OnlyBcdAndBlockStoreWriteMemory :
    exec (.jp 0x300) start = .next (start.setPc 0x300) ∧ (∀ x, Instr.jp 0x300 ≠ .ldB x) ∧
      ∀ x, Instr.jp 0x300 ≠ .storeRegs x := ⟨rfl, by simp, by simp⟩

/-- Both alternatives: an instruction that is no block transfer, and a block store under `none`. -/
theorem test_witness_IndexRegisterWriters :
    (exec (.jp 0x300) start = .next (start.setPc 0x300) ∧ (∀ x, Instr.jp 0x300 ≠ .storeRegs x) ∧
      ∀ x, Instr.jp 0x300 ≠ .loadRegs x) ∧
    (start.cfg.indexInc = .none ∧ (∃ t, exec (.storeRegs 0) (start.setI 0x300) = .next t) ∧
      (∀ nnn, Instr.storeRegs 0 ≠ .ldI nnn) ∧ (∀ x, Instr.storeRegs 0 ≠ .addI x) ∧
      ∀ x, Instr.storeRegs 0 ≠ .ldF x) :=
  ⟨⟨rfl, by simp, by simp⟩, rfl, ⟨_, rfl⟩, by simp, by simp, by simp⟩

/-- Each clause at an instruction that is not the one writer. -/
theorem test_witness_OnlyTimerLoadsWriteTheTimers :
    exec (.setST 0) start = .next (start.setST 0) ∧ (∀ x, Instr.setST 0 ≠ .setDT x) ∧
      exec (.setDT 0) start = .next (start.setDT 0) ∧ ∀ x, Instr.setDT 0 ≠ .setST x :=
  ⟨rfl, by simp, rfl, by simp⟩

/-- Each of the six instructions, with `x = 0xF` where the statement allows it. -/
theorem test_witness_FlagWritesStoreZeroOrOne :
    (∃ t, exec (.addReg 0xF 0) start = .next t ∧ t.phase = .running) ∧
    (∃ t, exec (.sub 0xF 0) start = .next t ∧ t.phase = .running) ∧
    (∃ t, exec (.subn 0xF 0) start = .next t ∧ t.phase = .running) ∧
    ((0xE : Nibble) ≠ 0xF ∧ ∃ t, exec (.shr 0xE 0) start = .next t ∧ t.phase = .running) ∧
    ((0xE : Nibble) ≠ 0xF ∧ ∃ t, exec (.shl 0xE 0) start = .next t ∧ t.phase = .running) ∧
    ∃ t, exec (.drw 0xF 0 5) start = .next t ∧ t.phase = .running :=
  ⟨⟨_, rfl, rfl⟩, ⟨_, rfl, rfl⟩, ⟨_, rfl, rfl⟩, ⟨by decide, _, rfl, rfl⟩, ⟨by decide, _, rfl, rfl⟩,
    ⟨_, rfl, rfl⟩⟩

theorem test_witness_SysFollowsItsParameter :
    start.cfg.sys = .unknown ∧ (startWith { params with sys := .nop }).cfg.sys = .nop := by decide

/-- `sp` at 0, 1 and 15. -/
theorem test_witness_ReturnPopsOrUnderflows :
    start.sp = 0 ∧ { start with sp := 1 }.sp ≠ 0 ∧ { start with sp := 15 }.sp ≠ 0 := by decide

/-- `sp` at 15, 14 and 0; the same for a call and its return. -/
theorem test_witness_CallPushesOrOverflows :
    { start with sp := 15 }.sp = 15 ∧ { start with sp := 14 }.sp ≠ 15 ∧ start.sp ≠ 15 := by decide

theorem test_witness_CallThenReturnRestoresPc : { start with sp := 14 }.sp ≠ 15 := by decide

/-- ADD, SUB and SUBN: a destination that is not `VF`. -/
theorem test_witness_AddSubtract : (0xE : Nibble) ≠ 0xF ∧ (0x0 : Nibble) ≠ 0xF := by decide

/-- The shifts: `x` below 0xF, and `x = 0xF` under each setting. -/
theorem test_witness_Shifts :
    (0xE : Nibble) ≠ 0xF ∧ start.cfg.shiftVF = .operandCaptured ∧
      (startWith { params with shiftVF := .inPlace }).cfg.shiftVF = .inPlace := by decide

/-- The first `n` addresses from `I` are in range. -/
abbrev readable (s : State) (n : Nat) : Prop := ∀ k < n, s.inRange (s.I.toNat + k)

/-- The first `n` addresses from `I` pass both checks of a store. -/
abbrev writable (s : State) (n : Nat) : Prop :=
  ∀ k < n, s.inRange (s.I.toNat + k) ∧ s.fontAllows (s.I.toNat + k)

/-- The largest sprite that ends at 0xFFF, one past it under wrap_12, and an empty one anywhere. -/
theorem test_witness_DrawXorsTheSprite :
    readable (start.setI 0xFF1) (0xF : Nibble).toNat ∧
    readable (wrapped.setI 0xFF2) (0xF : Nibble).toNat ∧
    readable (start.setI 0xFFFF) (0x0 : Nibble).toNat := by decide

theorem test_witness_DrawingTwiceRestoresTheDisplay :
    (0xE : Nibble) ≠ 0xF ∧ ∃ t u, exec (.drw 0xE 0xE 5) start = .next t ∧
      exec (.drw 0xE 0xE 5) t = .next u := ⟨by decide, _, _, rfl, rfl⟩

/-- SKP and SKNP: 0xF is a key; 0x10 and 0xFF are not, under each setting. -/
theorem test_witness_SkipOnKey :
    ((start.setReg 5 0x0F).reg 5).toNat ≤ 0xF ∧
    ((keyState .lowNibble).setReg 5 0x10).cfg.keyOob = .lowNibble ∧
    (0xF < (((keyState .notDown).setReg 5 0x10).reg 5).toNat ∧
      ((keyState .notDown).setReg 5 0x10).cfg.keyOob = .notDown) ∧
    0xF < (((keyState .fault).setReg 5 0xFF).reg 5).toNat ∧
      ((keyState .fault).setReg 5 0xFF).cfg.keyOob = .fault := by decide

/-- The three bytes just above the font, at the top of memory, wrapped, and in the writable font. -/
theorem test_witness_BcdStoresTheThreeDigits :
    writable (start.setI 0x050) 3 ∧ writable (start.setI 0xFFD) 3 ∧
      writable (wrapped.setI 0x1050) 3 ∧ writable (fontWritable.setI 0x04E) 3 := by decide

/-- All sixteen registers at the top of memory, and `V0` alone just above the font. -/
theorem test_witness_BlockStoreWritesTheRegisters :
    writable (start.setI 0xFF0) ((0xF : Nibble).toNat + 1) ∧
      writable (start.setI 0x050) ((0x0 : Nibble).toNat + 1) := by decide

/-- The font, the top of memory, and addresses that wrap. -/
theorem test_witness_BlockLoadReadsTheRegisters :
    readable (start.setI 0x000) ((0xF : Nibble).toNat + 1) ∧
    readable (start.setI 0xFF0) ((0xF : Nibble).toNat + 1) ∧
    readable (wrapped.setI 0xFFFF) ((0xF : Nibble).toNat + 1) := by decide

/-- The range clause, one instruction each: the third address of Fx33, the last of Fx55, the second of
Fx65, the first of Dxyn. -/
theorem test_witness_FirstFailingAddressHalts_range :
    (2 < 3 ∧ writable (start.setI 0xFFE) 2 ∧ ¬ (start.setI 0xFFE).inRange (0xFFE + 2)) ∧
    (15 < (0xF : Nibble).toNat + 1 ∧ writable (start.setI 0xFF1) 15 ∧
      ¬ (start.setI 0xFF1).inRange (0xFF1 + 15)) ∧
    (1 < (0x1 : Nibble).toNat + 1 ∧ readable (start.setI 0xFFF) 1 ∧
      ¬ (start.setI 0xFFF).inRange (0xFFF + 1)) ∧
    (0 < (0x1 : Nibble).toNat ∧ readable (start.setI 0xFFFF) 0 ∧
      ¬ (start.setI 0xFFFF).inRange (0xFFFF + 0)) := by decide

/-- The font clause: the first address of Fx55 at 0x04F, and the third of Fx33 that wraps to 0x000. -/
theorem test_witness_FirstFailingAddressHalts_font :
    (0 < (0x4 : Nibble).toNat + 1 ∧ writable (start.setI 0x04F) 0 ∧
      (start.setI 0x04F).inRange (0x04F + 0) ∧ ¬ (start.setI 0x04F).fontAllows (0x04F + 0)) ∧
    (2 < 3 ∧ writable (wrapped.setI 0xFFE) 2 ∧ (wrapped.setI 0xFFE).inRange (0xFFE + 2) ∧
      ¬ (wrapped.setI 0xFFE).fontAllows (0xFFE + 2)) := by decide

/-- Images of 3584 and 3585 bytes. -/
theorem test_witness_LoadIsAllOrNothing :
    (List.replicate 3584 (0x12 : Byte)).length ≤ 3584 ∧
      3584 < (List.replicate 3585 (0x12 : Byte)).length := by
  rw [List.length_replicate, List.length_replicate]; decide

/-- No image, and one that starts with the sentinel. -/
theorem test_witness_ImageOfZeroWordHaltsAtTheFirstStep :
    (∃ s, boot params [] = .ok s) ∧ ∃ s, boot params [0x00, 0x00, 0x60] = .ok s :=
  ⟨⟨_, rfl⟩, ⟨_, rfl⟩⟩

end Sys2Proof.Tests
end

section
/-! The state family (10_state.md): which instruction writes which piece of state, and what every step
keeps. The proofs cite `exec_cases` and `step_cases`; what they need besides is a lemma here. -/

namespace Sys2Proof.Machine

/-! ### What an instruction leaves unchanged -/

/-- A halt changes the phase and nothing else (R17). -/
theorem Frame.raise (s : State) (r : HaltResult) : Frame noReg [.phase] s (s.raise r) :=
  ⟨fun q _ => by simp, fun f hf => by cases f <;> simp [Field.Same] at hf ⊢⟩

/-- A piece of state that an instruction does not list is unchanged, whether it completes or halts;
only the phase can change in a halt. -/
theorem exec_same {i : Instr} {s t : State} {f : Field} (h : exec i s = .next t)
    (hphase : f ≠ .phase) (hf : f ∉ Instr.writesFields i) : f.Same s t := by
  rcases exec_cases h with ⟨r, rfl⟩ | ⟨-, hsame⟩
  · exact (Frame.raise s r).2 f (by simpa using hphase)
  · exact hsame f hf

/-! ### The writers of each piece of state (R22) -/

theorem sp_mem_writesFields {i : Instr} :
    Field.sp ∈ Instr.writesFields i ↔ i = .ret ∨ ∃ nnn, i = .call nnn := by
  cases i <;> simp [Instr.writesFields]

theorem stack_mem_writesFields {i : Instr} :
    Field.stack ∈ Instr.writesFields i ↔ ∃ nnn, i = .call nnn := by
  cases i <;> simp [Instr.writesFields]

theorem disp_mem_writesFields {i : Instr} :
    Field.disp ∈ Instr.writesFields i ↔ i = .cls ∨ ∃ x y n, i = .drw x y n := by
  cases i <;> simp [Instr.writesFields]

theorem DT_mem_writesFields {i : Instr} : Field.DT ∈ Instr.writesFields i ↔ ∃ x, i = .setDT x := by
  cases i <;> simp [Instr.writesFields]

theorem ST_mem_writesFields {i : Instr} : Field.ST ∈ Instr.writesFields i ↔ ∃ x, i = .setST x := by
  cases i <;> simp [Instr.writesFields]

theorem I_mem_writesFields {i : Instr} :
    Field.I ∈ Instr.writesFields i ↔
      (∃ nnn, i = .ldI nnn) ∨ (∃ x, i = .addI x) ∨ (∃ x, i = .ldF x) ∨
        (∃ x, i = .storeRegs x) ∨ ∃ x, i = .loadRegs x := by
  cases i <;> simp [Instr.writesFields]

/-! ### The call stack -/

/-- RET halts on the empty stack, or pops (R92). -/
theorem execRet_cases {s t : State} (h : execRet s = .next t) :
    (s.sp = 0 ∧ t = s.raise .stackUnderflow) ∨ (s.sp ≠ 0 ∧ t = s.pop.setPc s.top) := by
  unfold execRet at h
  split at h <;> injection h with h
  · next hsp => exact .inl ⟨hsp, h.symm⟩
  · next hsp => exact .inr ⟨hsp, h.symm⟩

/-- CALL halts on the full stack, or pushes and jumps (R95). -/
theorem execCall_cases {nnn : Addr12} {s t : State} (h : execCall nnn s = .next t) :
    (s.sp = 15 ∧ t = s.raise .stackOverflow) ∨
    (s.sp ≠ 15 ∧ t = (s.push s.pc).setPc (address nnn)) := by
  unfold execCall at h
  split at h <;> injection h with h
  · next hsp => exact .inl ⟨hsp, h.symm⟩
  · next hsp => exact .inr ⟨hsp, h.symm⟩

/-- What an instruction can do to the call stack: nothing, pop an entry of a stack that is not empty,
or push `pc` on one that is not full (R27 to R29). -/
theorem exec_callStack_cases {i : Instr} {s t : State} (h : exec i s = .next t) :
    (t.sp = s.sp ∧ t.stack = s.stack) ∨
    (s.sp ≠ 0 ∧ t.sp = s.sp - 1 ∧ t.stack = s.stack) ∨
    (s.sp ≠ 15 ∧ t.sp = s.sp + 1 ∧ t.stack = s.stack.set (s.sp + 1).toNat s.pc) := by
  by_cases hw : i = .ret ∨ ∃ nnn, i = .call nnn
  · rcases hw with rfl | ⟨nnn, rfl⟩
    · rcases execRet_cases h with ⟨-, rfl⟩ | ⟨hsp, rfl⟩
      · exact .inl ⟨rfl, rfl⟩
      · exact .inr (.inl ⟨hsp, rfl, rfl⟩)
    · rcases execCall_cases h with ⟨-, rfl⟩ | ⟨hsp, rfl⟩
      · exact .inl ⟨rfl, rfl⟩
      · exact .inr (.inr ⟨hsp, rfl, rfl⟩)
  · exact .inl ⟨exec_same (f := .sp) h (by simp) (mt sp_mem_writesFields.1 hw),
      exec_same (f := .stack) h (by simp) fun hm => hw (.inr (stack_mem_writesFields.1 hm))⟩

/-- An instruction keeps any property that every stack entry and `pc` have. -/
theorem exec_stack_forall {P : Word → Prop} {i : Instr} {s t : State} (h : exec i s = .next t)
    (hpc : P s.pc) (hstack : ∀ j, (hj : j < 16) → P s.stack[j]) :
    ∀ j, (hj : j < 16) → P t.stack[j] := by
  intro j hj
  rcases exec_callStack_cases h with ⟨-, e⟩ | ⟨-, -, e⟩ | ⟨-, -, e⟩
  · simpa only [e] using hstack j hj
  · simpa only [e] using hstack j hj
  · simp only [e, Vector.getElem_set]
    split
    · exact hpc
    · exact hstack j hj

/-- An instruction moves `sp` by at most one, never wraps it, and never writes entry 0 (R27, R28,
R36). -/
theorem exec_sp_bounds {i : Instr} {s t : State} (h : exec i s = .next t) :
    t.sp.toNat ≤ s.sp.toNat + 1 ∧ s.sp.toNat ≤ t.sp.toNat + 1 ∧ t.stack[0] = s.stack[0] := by
  rcases exec_callStack_cases h with ⟨esp, est⟩ | ⟨hsp, esp, est⟩ | ⟨hsp, esp, est⟩
  · simp [esp, est]
  · have hpop : (s.sp - 1).toNat + 1 = s.sp.toNat := by bv_omega
    rw [esp]
    exact ⟨by omega, hpop.ge, by simp only [est]⟩
  · have hpush : (s.sp + 1).toNat = s.sp.toNat + 1 := by bv_omega
    rw [esp]
    refine ⟨hpush.le, by omega, ?_⟩
    simp only [est, Vector.getElem_set]
    exact if_neg (by omega)

/-! ### Where `pc` can go -/

/-- The addresses that an instruction executed in `s` can leave in `pc`. -/
inductive State.PcTarget (s : State) : Word → Prop
  /-- The next instruction. -/
  | sequential : s.PcTarget s.pc
  /-- The instruction after it: a taken skip (R96, R121). -/
  | skip : s.PcTarget (s.pc + 2)
  /-- The instruction itself: the key wait (R123). -/
  | again : s.PcTarget (s.pc - 2)
  /-- JP and CALL (R93, R95). -/
  | jump (nnn : Addr12) : s.PcTarget (address nnn)
  /-- JP V0 (R94). -/
  | jumpV0 (nnn : Addr12) : s.PcTarget (s.jumpV0Target nnn)
  /-- RET (R92). -/
  | popped : s.PcTarget s.top

theorem State.PcTarget.skipIf (s : State) (taken : Bool) : s.PcTarget (s.skipIf taken).pc := by
  cases taken
  · exact .sequential
  · exact .skip

theorem State.PcTarget.keyAnswer (s : State) (x : Nibble) (k : Option Nibble) :
    s.PcTarget (s.keyAnswer x k).pc := by
  cases k
  · exact .again
  · exact .sequential

/-- A draw leaves `pc` and everything its targets depend on. -/
theorem State.PcTarget.of_drawn {s : State} {a : Word} (h : s.drawn.PcTarget a) : s.PcTarget a := by
  cases h
  · exact .sequential
  · exact .skip
  · exact .again
  · exact .jump _
  · exact .jumpV0 _
  · exact .popped

theorem skipOnKey_pcTarget {x : Nibble} {wanted : Bool} {s t : State}
    (h : skipOnKey x wanted s = .next t) : s.PcTarget t.pc := by
  rcases skipOnKey_cases h with ⟨r, -, rfl⟩ | ⟨-, rfl⟩ | ⟨k, -, rfl⟩
  · exact .sequential
  · exact .skipIf s _
  · exact .of_drawn (.skipIf s.drawn _)

/-- An instruction leaves one of its targets in `pc` (R24, R25). -/
theorem exec_pcTarget {i : Instr} {s t : State} (h : exec i s = .next t) : s.PcTarget t.pc := by
  by_cases hw : Field.pc ∈ Instr.writesFields i
  · cases i <;> simp [Instr.writesFields] at hw
    case ret =>
      rcases execRet_cases h with ⟨-, rfl⟩ | ⟨-, rfl⟩
      · exact .sequential
      · exact .popped
    case call nnn =>
      rcases execCall_cases h with ⟨-, rfl⟩ | ⟨-, rfl⟩
      · exact .sequential
      · exact .jump nnn
    case jp nnn => injection h with h; subst h; exact .jump nnn
    case jpV0 nnn => injection h with h; subst h; exact .jumpV0 nnn
    case seImm => injection h with h; subst h; exact .skipIf s _
    case sneImm => injection h with h; subst h; exact .skipIf s _
    case seReg => injection h with h; subst h; exact .skipIf s _
    case sneReg => injection h with h; subst h; exact .skipIf s _
    case skp => exact skipOnKey_pcTarget h
    case sknp => exact skipOnKey_pcTarget h
    case ldKey => injection h with h; subst h; exact .of_drawn (.keyAnswer s.drawn _ _)
  · have hpc : t.pc = s.pc := exec_same (f := .pc) h (by simp) hw
    rw [hpc]
    exact .sequential

/-- The largest target of an instruction that stands below 0x1000: JP V0 can reach 0xFFF + 0xFF
(R25, R94). -/
theorem State.PcTarget.le {s : State} {a : Word} (h : s.PcTarget a) (hs : s.PcBounded)
    (hlo : 2 ≤ s.pc.toNat) (hhi : s.pc.toNat ≤ 0x1000) : a.toNat ≤ 0x10FE := by
  obtain ⟨-, -, hstack⟩ := hs
  cases h with
  | sequential => omega
  | skip => bv_omega
  | again => bv_omega
  | jump nnn =>
    simp only [address, BitVec.toNat_setWidth]
    omega
  | jumpV0 nnn =>
    simp only [State.jumpV0Target, address, zext16, BitVec.toNat_add, BitVec.toNat_setWidth]
    omega
  | popped => exact (hstack s.sp.toNat s.sp.isLt).trans (by decide)

/-! ### The bound on `pc` -/

/-- A fetch that gives a word had both its addresses in range (R48). -/
theorem State.inRange_of_fetch {s : State} {w : Word} (h : s.fetch = .ok w) :
    s.inRange s.pc.toNat ∧ s.inRange (s.pc.toNat + 1) := by
  unfold State.fetch at h
  split at h
  · cases h
  · next hc =>
    have hread := firstFailure_eq_none.1 hc
    exact ⟨checkRead_eq_none.1 (hread 0 (by decide)), checkRead_eq_none.1 (hread 1 (by decide))⟩

/-- Under the bound an instruction is fetched from below 0xFFF, so the step's advance ends at most at
0x1000 and does not wrap (R48, R81). -/
theorem State.PcBounded.advance_of_fetch {s : State} (hs : s.PcBounded) {w : Word}
    (h : s.fetch = .ok w) : 2 ≤ (s.pc + 2).toNat ∧ (s.pc + 2).toNat ≤ 0x1000 := by
  obtain ⟨hmem, -, -⟩ := hs
  have hpc : s.pc.toNat + 1 ≤ 0xFFF := by
    obtain ⟨-, hr | hr⟩ := State.inRange_of_fetch h
    · exact hr
    · rw [hmem] at hr
      cases hr
  constructor <;> bv_omega

theorem State.PcBounded.setPc {s : State} (hs : s.PcBounded) {a : Word} (ha : a.toNat ≤ 0x10FE) :
    (s.setPc a).PcBounded := by
  obtain ⟨hmem, -, hstack⟩ := hs
  exact ⟨hmem, ha, hstack⟩

theorem State.PcBounded.raise {s : State} (hs : s.PcBounded) (r : HaltResult) :
    (s.raise r).PcBounded := hs

/-- An instruction fetched from below 0xFFF keeps the bound (R25). -/
theorem exec_pcBounded {i : Instr} {s t : State} (hs : s.PcBounded) (hlo : 2 ≤ s.pc.toNat)
    (hhi : s.pc.toNat ≤ 0x1000) (h : exec i s = .next t) : t.PcBounded := by
  have hpc : t.pc.toNat ≤ 0x10FE := (exec_pcTarget h).le hs hlo hhi
  obtain ⟨hmem, -, hstack⟩ := hs
  exact ⟨by rw [exec_cfg h, hmem], hpc,
    exec_stack_forall (P := fun a => a.toNat ≤ 0x1000) h hhi hstack⟩

/-- Settles O18: the step's advance ends at most at 0x1000, and from there no instruction's target is
above 0x10FE. -/
theorem stepKeepsPcBounded : Obligations.StepKeepsPcBounded := by
  intro s t hs h
  rcases step_cases h with ⟨r, -, rfl⟩ | ⟨-, r, -, rfl⟩ | ⟨-, -, rfl⟩ | ⟨-, w, hf, -, rfl⟩ |
    ⟨-, w, i, hf, -, hexec⟩
  · exact hs
  · exact hs.raise r
  · exact hs.raise .haltedNormally
  · obtain ⟨-, hhi⟩ := hs.advance_of_fetch hf
    exact (hs.setPc (hhi.trans (by decide))).raise (.unknownOpcode w)
  · obtain ⟨hlo, hhi⟩ := hs.advance_of_fetch hf
    exact exec_pcBounded (hs.setPc (hhi.trans (by decide))) hlo hhi hexec

/-! ### What every step and every run keeps -/

/-- A step writes `pc` and the phase at most, or executes an instruction with `pc` advanced (R86). -/
theorem step_frame_or_exec {s t : State} (h : step s = .next t) :
    Frame noReg [.pc, .phase] s t ∨ ∃ i, exec i (s.setPc (s.pc + 2)) = .next t := by
  have raised : ∀ (u : State) r, Frame noReg [.pc, .phase] u (u.raise r) := fun u r =>
    (Frame.raise u r).weaken (fun _ hq => hq) (by simp)
  rcases step_cases h with ⟨r, -, rfl⟩ | ⟨-, r, -, rfl⟩ | ⟨-, -, rfl⟩ | ⟨-, w, -, -, rfl⟩ |
    ⟨-, w, i, -, -, hexec⟩
  · exact .inl (.refl _ _ _)
  · exact .inl (raised s r)
  · exact .inl (raised s _)
  · exact .inl (((Frame.setPc s _).weaken (fun _ hq => hq) (by simp)).trans (raised _ _))
  · exact .inr ⟨i, hexec⟩

/-- A step keeps the parameters (R35). -/
theorem step_cfg {s t : State} (h : step s = .next t) : t.cfg = s.cfg := by
  rcases step_frame_or_exec h with ⟨-, hsame⟩ | ⟨i, hexec⟩
  · exact hsame .cfg (by simp)
  · exact (exec_cfg hexec).trans (s.setPc_cfg _)

/-- A move keeps the parameters (R35). -/
theorem applyMove_cfg {m : Move} {s t : State} (h : applyMove m s = .next t) : t.cfg = s.cfg := by
  cases m with
  | step => exact step_cfg h
  | tick => injection h with h; subst h; rfl
  | redraw => injection h with h; rw [h]
  | audio => injection h with h; rw [h]

/-- A property that every move keeps holds after every run (R151). -/
theorem runMoves_keeps {P : State → Prop}
    (hmove : ∀ m s t, applyMove m s = .next t → P s → P t) {moves : List Move} {s t : State}
    (h : runMoves moves s = .next t) (hs : P s) : P t := by
  induction moves generalizing s with
  | nil => injection h with h; exact h ▸ hs
  | cons m ms ih =>
    rw [runMoves] at h
    cases hm : applyMove m s with
    | next u => rw [hm] at h; exact ih h (hmove m s u hm hs)
    | fault r => rw [hm] at h; cases h
    | refused r => rw [hm] at h; cases h

/-- Settles O21, by induction on the moves. -/
theorem parametersAreFixedForARun : Obligations.ParametersAreFixedForARun := fun _ s _ h =>
  runMoves_keeps (P := fun u => u.cfg = s.cfg) (fun _ _ _ hm hu => (applyMove_cfg hm).trans hu) h rfl

/-- Settles O22. -/
theorem onlyCallAndReturnWriteTheStack : Obligations.OnlyCallAndReturnWriteTheStack := by
  intro i s t h hret hcall
  have hnocall : ¬ ∃ nnn, i = .call nnn := fun ⟨nnn, e⟩ => hcall nnn e
  exact ⟨exec_same (f := .stack) h (by simp) (mt stack_mem_writesFields.1 hnocall),
    exec_same (f := .sp) h (by simp) (mt sp_mem_writesFields.1 (not_or.2 ⟨hret, hnocall⟩))⟩

/-- Settles O23: only the executed instruction can move `sp`. -/
theorem stackPointerNeverWraps : Obligations.StackPointerNeverWraps := by
  intro s t h
  rcases step_frame_or_exec h with ⟨-, hsame⟩ | ⟨i, hexec⟩
  · have hsp : t.sp = s.sp := hsame .sp (by simp)
    have hstack : t.stack = s.stack := hsame .stack (by simp)
    simp [hsp, hstack]
  · simpa only [State.setPc_sp, State.setPc_stack] using exec_sp_bounds hexec

/-- Settles O24. -/
theorem onlyClearAndDrawWriteTheDisplay : Obligations.OnlyClearAndDrawWriteTheDisplay := by
  intro i s t h hcls hdrw
  refine exec_same (f := .disp) h (by simp) (mt disp_mem_writesFields.1 ?_)
  rintro (e | ⟨x, y, n, e⟩)
  · exact hcls e
  · exact hdrw x y n e

/-! ### The index register -/

/-- R131 under `P_INDEX_INC = none`. -/
theorem indexAfter_of_none {p : Params} (h : p.indexInc = .none) (a : Word) (x : Nibble) :
    indexAfter p a x = a := by
  simp [indexAfter, h]

/-- Under `P_INDEX_INC = none` a block store keeps `I` (R131, R132). -/
theorem execStoreRegs_I_of_none {x : Nibble} {s t : State} (hinc : s.cfg.indexInc = .none)
    (h : execStoreRegs x s = .next t) : t.I = s.I := by
  rcases execStoreRegs_cases h with ⟨r, -, rfl⟩ | ⟨-, rfl⟩
  · rfl
  · exact indexAfter_of_none hinc _ x

/-- Under `P_INDEX_INC = none` a block load keeps `I` (R131, R133). -/
theorem execLoadRegs_I_of_none {x : Nibble} {s t : State} (hinc : s.cfg.indexInc = .none)
    (h : execLoadRegs x s = .next t) : t.I = s.I := by
  rcases execLoadRegs_cases h with ⟨r, -, rfl⟩ | ⟨-, rfl⟩
  · rfl
  · exact indexAfter_of_none hinc _ x

/-- Settles O26. -/
theorem indexRegisterWriters : Obligations.IndexRegisterWriters := by
  intro i s t h hldI haddI hldF hblock
  by_cases hw : Field.I ∈ Instr.writesFields i
  · rcases I_mem_writesFields.1 hw with ⟨nnn, e⟩ | ⟨x, e⟩ | ⟨x, e⟩ | ⟨x, rfl⟩ | ⟨x, rfl⟩
    · exact absurd e (hldI nnn)
    · exact absurd e (haddI x)
    · exact absurd e (hldF x)
    · rcases hblock with hinc | ⟨hstore, -⟩
      · exact execStoreRegs_I_of_none hinc h
      · exact absurd rfl (hstore x)
    · rcases hblock with hinc | ⟨-, hload⟩
      · exact execLoadRegs_I_of_none hinc h
      · exact absurd rfl (hload x)
  · exact exec_same (f := .I) h (by simp) hw

/-- Settles O27. -/
theorem onlyTimerLoadsWriteTheTimers : Obligations.OnlyTimerLoadsWriteTheTimers := by
  intro i s t h
  constructor
  · intro hDT
    exact exec_same (f := .DT) h (by simp) fun hm =>
      let ⟨x, e⟩ := DT_mem_writesFields.1 hm; hDT x e
  · intro hST
    exact exec_same (f := .ST) h (by simp) fun hm =>
      let ⟨x, e⟩ := ST_mem_writesFields.1 hm; hST x e

/-! ### The flag register -/

/-- With the result written first, `VF` ends as the flag (R114). -/
theorem State.setResultThenFlag_vf (s : State) (x : Nibble) (b : Byte) (c : Bool) :
    (s.setResultThenFlag x b (flag c)).reg 0xF = 0 ∨
      (s.setResultThenFlag x b (flag c)).reg 0xF = 1 := by
  rw [State.setResultThenFlag_reg, if_pos rfl]
  exact flag_eq_zero_or_one c

/-- With the flag written first, `VF` ends as the flag unless the result goes there too (R114). -/
theorem State.setFlagThenShift_vf (s : State) {x : Nibble} (hx : x ≠ 0xF) (c : Bool)
    (g : Byte → Byte) :
    (s.setFlagThenShift x (flag c) g).reg 0xF = 0 ∨
      (s.setFlagThenShift x (flag c) g).reg 0xF = 1 := by
  rw [State.setFlagThenShift_reg, if_neg hx.symm, if_pos rfl]
  exact flag_eq_zero_or_one c

/-- Settles O28, one case for each instruction that writes a flag. -/
theorem flagWritesStoreZeroOrOne : Obligations.FlagWritesStoreZeroOrOne := by
  rintro i s t x y n h hrun (rfl | rfl | rfl | ⟨hx, rfl⟩ | ⟨hx, rfl⟩ | rfl)
  · injection h with h; subst h; exact s.setResultThenFlag_vf x _ _
  · injection h with h; subst h; exact s.setResultThenFlag_vf x _ _
  · injection h with h; subst h; exact s.setResultThenFlag_vf x _ _
  · injection h with h; subst h; exact s.setFlagThenShift_vf hx _ _
  · injection h with h; subst h; exact s.setFlagThenShift_vf hx _ _
  · rcases execDrw_cases h with ⟨r, -, rfl⟩ | ⟨-, d, b, rfl⟩
    · cases hrun
    · rw [State.setReg_reg_self]
      exact flag_eq_zero_or_one b

/-! ### Reset -/

/-- Memory after reset: the font below 0x050, zero above (R42, R156). -/
theorem reset_byteAt (a : Nat) : State.reset.byteAt a = initialByte defaultFont a := rfl

theorem initialByte_of_lt (font : Font) {a : Nat} (h : a < 80) : initialByte font a = font[a] := by
  simp [initialByte, h]

theorem initialByte_of_le (font : Font) {a : Nat} (h : 80 ≤ a) : initialByte font a = 0 := by
  simp [initialByte, Nat.not_lt.2 h]

theorem reset_reg (x : Nibble) : State.reset.reg x = 0 := by
  simp [State.reset, State.construct, State.reg, resetV]

theorem reset_stack_getElem (j : Nat) (h : j < 16) : State.reset.stack[j] = 0 := by
  simp [State.reset, State.construct, resetStack]

/-- Settles O19: memory lists nothing, so it reads as constructed. -/
theorem resetMeetsTheInvariants : Obligations.ResetMeetsTheInvariants := by
  have hcanonical : State.reset.MemoryCanonical := ⟨.nil, fun _ hc => absurd hc List.not_mem_nil⟩
  have hfont : State.reset.FontIntact := fun a h => by
    rw [reset_byteAt, initialByte_of_lt _ h]
    rfl
  have hpc : State.reset.PcBounded :=
    ⟨rfl, by decide, fun j h => by rw [reset_stack_getElem j h]; decide⟩
  exact ⟨hcanonical, hfont, rfl, hpc⟩

/-- Settles O20. -/
theorem resetHoldsTheResetValues : Obligations.ResetHoldsTheResetValues := by
  have hfont : ∀ a, (h : a < 80) → State.reset.byteAt a = defaultFont[a] := fun a h => by
    rw [reset_byteAt, initialByte_of_lt _ h]
  have hzero : ∀ a, 0x050 ≤ a → State.reset.byteAt a = 0 := fun a h => by
    rw [reset_byteAt, initialByte_of_le _ h]
  exact ⟨rfl, rfl, hfont, hzero, reset_reg, rfl, rfl, reset_stack_getElem, rfl, rfl,
    fun k _ => cell_darkDisplay k⟩

end Sys2Proof.Machine
end

section
/-! The memory family (20_memory.md): what instructions and steps do to memory, and the checks that
every access passes first. The proofs cite the laws of memory and of the checks; what they need besides
is a lemma here. -/

namespace Sys2Proof.Machine

/-! ### Memory after an instruction and after a step -/

@[simp] theorem State.writeBytes_cfg (s : State) (base : Nat) (bytes : List Byte) :
    (s.writeBytes base bytes).cfg = s.cfg := by
  obtain ⟨m, hm⟩ := s.writeBytes_eq base bytes
  rw [hm]

/-- A block write does not depend on `pc`. -/
theorem State.setPc_writeBytes (s : State) (a : Word) (base : Nat) (bytes : List Byte) :
    (s.setPc a).writeBytes base bytes = (s.writeBytes base bytes).setPc a := by
  induction bytes generalizing s base with
  | nil => rfl
  | cons b bs ih => exact ih (s.memWrite base b) (base + 1)

/-- What a byte reads as depends on memory and the parameters alone. -/
theorem State.byteAt_congr {s t : State} (hmem : t.mem = s.mem) (hcfg : t.cfg = s.cfg) (a : Nat) :
    t.byteAt a = s.byteAt a := by
  rw [State.byteAt, State.byteAt, hmem, hcfg]

/-- Each address of a block of `n` bytes at `I` passes the checks of a write (R44 to R46). -/
def State.StoreAccepted (s : State) (n : Nat) : Prop :=
  ∀ k < n, s.inRange (s.I.toNat + k) ∧ s.fontAllows (s.I.toNat + k)

/-- `t`'s memory is `s`'s with a block of accepted bytes, perhaps none, stored at `I`. -/
def State.StoresInto (s t : State) : Prop :=
  ∃ bytes : List Byte, s.StoreAccepted bytes.length ∧ t.mem = (s.writeBytes s.I.toNat bytes).mem

/-- Unchanged memory is a store of no bytes. -/
theorem State.StoresInto.of_mem_eq {s t : State} (h : t.mem = s.mem) : s.StoresInto t :=
  ⟨[], fun k hk => absurd hk k.not_lt_zero, h⟩

theorem State.StoresInto.of_setPc {s t : State} {a : Word} (h : (s.setPc a).StoresInto t) :
    s.StoresInto t := by
  obtain ⟨bytes, haccepted, hmem⟩ := h
  exact ⟨bytes, haccepted, by rw [hmem, State.setPc_writeBytes]; rfl⟩

/-- All an instruction does to memory is an accepted store at `I` (R41, R46). -/
theorem exec_storesInto {i : Instr} {s t : State} (h : exec i s = .next t) : s.StoresInto t := by
  rcases exec_mem h with hmem | ⟨bytes, haccepted, -, hmem⟩
  · exact .of_mem_eq hmem
  · exact ⟨bytes, haccepted, hmem⟩

/-- All a step does to memory is an accepted store at `I`. -/
theorem step_storesInto {s t : State} (h : step s = .next t) : s.StoresInto t := by
  rcases step_cases h with ⟨r, -, rfl⟩ | ⟨-, r, -, rfl⟩ | ⟨-, -, rfl⟩ | ⟨-, w, -, -, rfl⟩ |
    ⟨-, w, i, -, -, hexec⟩
  · exact .of_mem_eq rfl
  · exact .of_mem_eq rfl
  · exact .of_mem_eq rfl
  · exact .of_mem_eq rfl
  · exact .of_setPc (exec_storesInto hexec)

/-- Settles O16: a step's stores go through `MemWrite`, which keeps the canonical form. -/
theorem stepKeepsMemoryCanonical : Obligations.StepKeepsMemoryCanonical := by
  intro s t hs h
  obtain ⟨bytes, -, hmem⟩ := step_storesInto h
  have hwritten := State.writeBytes_canonical hs s.I.toNat bytes
  rwa [State.MemoryCanonical, State.writeBytes_cfg, ← hmem, ← step_cfg h] at hwritten

/-! ### The font region -/

/-- Under `P_FONT_WRITE = fault` an accepted block reaches no byte of the font region (R45). -/
theorem State.StoreAccepted.writeBytes_byteAt_font {s : State} {bytes : List Byte}
    (h : s.StoreAccepted bytes.length) (hfault : s.cfg.fontWrite = .fault) {a : Nat} (ha : a < 0x050) :
    (s.writeBytes s.I.toNat bytes).byteAt a = s.byteAt a := by
  refine s.writeBytes_byteAt_other _ _ a fun k hk => ?_
  obtain ⟨-, hfont | hwrite⟩ := h k hk
  · exact (ha.trans_le hfont).ne
  · rw [hfault] at hwrite
    cases hwrite

/-- Settles O17: the font check keeps every byte of a step's stores out of the font region. -/
theorem stepKeepsTheFont : Obligations.StepKeepsTheFont := by
  intro s t hfault hfont h
  obtain ⟨bytes, haccepted, hmem⟩ := step_storesInto h
  have hcfg : t.cfg = s.cfg := step_cfg h
  refine ⟨fun a ha => ?_, by rw [hcfg, hfault]⟩
  calc t.byteAt a
      = (s.writeBytes s.I.toNat bytes).byteAt a :=
        State.byteAt_congr hmem (by rw [hcfg, State.writeBytes_cfg]) a
    _ = s.byteAt a := haccepted.writeBytes_byteAt_font hfault ha
    _ = t.cfg.font[a] := by rw [hfont a ha, hcfg]

/-! ### The writers of memory -/

theorem mem_mem_writesFields {i : Instr} :
    Field.mem ∈ Instr.writesFields i ↔ (∃ x, i = .ldB x) ∨ ∃ x, i = .storeRegs x := by
  cases i <;> simp [Instr.writesFields]

/-- Settles O25. -/
theorem onlyBcdAndBlockStoreWriteMemory : Obligations.OnlyBcdAndBlockStoreWriteMemory := by
  intro i s t h hldB hstore
  refine exec_same (f := .mem) h (by simp) (mt mem_mem_writesFields.1 ?_)
  rintro (⟨x, e⟩ | ⟨x, e⟩)
  · exact hldB x e
  · exact hstore x e

/-! ### The first failing address -/

/-- The instructions that access memory at `I`, whether they write it, and how many bytes (R116, R130,
R132, R133). -/
inductive Instr.Accesses : Instr → Bool → Nat → Prop
  | ldB (x : Nibble) : Instr.Accesses (.ldB x) true 3
  | storeRegs (x : Nibble) : Instr.Accesses (.storeRegs x) true (x.toNat + 1)
  | loadRegs (x : Nibble) : Instr.Accesses (.loadRegs x) false (x.toNat + 1)
  | drw (x y n : Nibble) : Instr.Accesses (.drw x y n) false n.toNat

/-- The checks of one access: those of a write or those of a read. -/
def accessCheck (p : Params) (writes : Bool) : Nat → Option HaltResult :=
  if writes then checkWrite p else checkRead p

theorem accessCheck_eq_none {s : State} {writes : Bool} {a : Nat} :
    accessCheck s.cfg writes a = none ↔ s.inRange a ∧ (writes = true → s.fontAllows a) := by
  cases writes with
  | true => simpa [accessCheck] using checkWrite_eq_none (s := s)
  | false => simpa [accessCheck] using checkRead_eq_none (s := s)

theorem accessCheck_of_not_inRange {s : State} {a : Nat} (h : ¬ s.inRange a) (writes : Bool) :
    accessCheck s.cfg writes a = some (.fault (.memoryOutOfRange a)) := by
  cases writes with
  | true => exact checkWrite_of_not_inRange h
  | false => exact checkRead_eq_some h

/-- A block store with a failed check halts (R46). -/
theorem storeBlock_of_firstFailure {s : State} {bytes : List Byte} {r : HaltResult}
    (h : firstFailure (checkWrite s.cfg) s.I.toNat bytes.length = some r) (after : State → State) :
    storeBlock s bytes after = .next (s.raise r) := by
  rw [storeBlock, h]

/-- An instruction whose accesses fail their checks halts and does nothing else (R46, R140). -/
theorem exec_of_firstFailure {i : Instr} {writes : Bool} {count : Nat} {s : State} {r : HaltResult}
    (hi : Instr.Accesses i writes count)
    (h : firstFailure (accessCheck s.cfg writes) s.I.toNat count = some r) :
    exec i s = .next (s.raise r) := by
  cases hi with
  | ldB x => exact storeBlock_of_firstFailure (bytes := bcdDigits (s.reg x)) h id
  | storeRegs x =>
    rw [← s.regsUpTo_length x] at h
    exact storeBlock_of_firstFailure h fun t => t.setI (indexAfter s.cfg s.I x)
  | loadRegs x =>
    have hread : firstFailure (checkRead s.cfg) s.I.toNat (x.toNat + 1) = some r := h
    rw [exec, execLoadRegs, hread]
  | drw x y n =>
    have hread : firstFailure (checkRead s.cfg) s.I.toNat n.toNat = some r := h
    rw [exec, execDrw, hread]

/-- Settles O57. -/
theorem firstFailingAddressHalts : Obligations.FirstFailingAddressHalts := by
  intro s i writes count k hi hk before
  have haccess : Instr.Accesses i writes count := by
    rcases hi with ⟨x, rfl, rfl, rfl⟩ | ⟨x, rfl, rfl, rfl⟩ | ⟨x, rfl, rfl, rfl⟩ |
      ⟨x, y, n, rfl, rfl, rfl⟩
    · exact .ldB x
    · exact .storeRegs x
    · exact .loadRegs x
    · exact .drw x y n
  have halts (r : HaltResult) (hr : accessCheck s.cfg writes (s.I.toNat + k) = some r) :
      exec i s = .next (s.raise r) :=
    exec_of_firstFailure haccess
      (firstFailure_eq_some hk (fun j hj => accessCheck_eq_none.2 (before j hj)) hr)
  constructor
  · intro hrange
    exact halts _ (accessCheck_of_not_inRange hrange writes)
  · rintro hrange rfl hfont
    exact halts _ (checkWrite_of_not_fontAllows hrange hfont)

/-! ### The fetch -/

/-- A running core whose fetch fails halts with the fetch's result (R79). -/
theorem step_of_fetch_error {s : State} {r : HaltResult} (hrun : s.phase = .running)
    (h : s.fetch = .error r) : step s = .next (s.raise r) := by
  simp only [step, State.frontEnd, hrun, h]

/-- The first of `pc` and `pc + 1` out of range is the address the fetch reports (R48). -/
theorem State.fetch_of_not_inRange {s : State} {k : Nat} (hk : k < 2)
    (before : ∀ j < k, s.inRange (s.pc.toNat + j)) (hfail : ¬ s.inRange (s.pc.toNat + k)) :
    s.fetch = .error (.fault (.memoryOutOfRange (s.pc.toNat + k))) := by
  rw [State.fetch, firstFailure_eq_some hk (fun j hj => checkRead_eq_none.2 (before j hj))
    (checkRead_eq_some hfail)]

/-- Under `P_MEM_OOB = fault` the addresses in range are those up to 0xFFF (R44). -/
theorem State.inRange_iff_of_fault {s : State} (h : s.cfg.memOob = .fault) {a : Nat} :
    s.inRange a ↔ a ≤ 0xFFF := by
  simp [State.inRange, h]

/-- Settles O11: at 0xFFF the second address of the fetch is the first above 0xFFF, and above it the
first is. -/
theorem fetchOutOfRangeHaltsInPlace : Obligations.FetchOutOfRangeHaltsInPlace := by
  intro s hrun hoob hpc
  refine step_of_fetch_error hrun ?_
  have inRange_iff {a : Nat} := State.inRange_iff_of_fault hoob (a := a)
  rcases hpc.eq_or_lt with hlast | habove
  · have hmax : max s.pc.toNat 0x1000 = s.pc.toNat + 1 := by omega
    rw [hmax]
    exact State.fetch_of_not_inRange (by decide) (fun j hj => inRange_iff.2 (by omega))
      (mt inRange_iff.1 (by omega))
  · have hmax : max s.pc.toNat 0x1000 = s.pc.toNat + 0 := by omega
    rw [hmax]
    exact State.fetch_of_not_inRange (by decide) (fun j hj => absurd hj j.not_lt_zero)
      (mt inRange_iff.1 (by omega))

/-- The number of a word, from its high byte and its low byte (R47). -/
theorem append_toNat (hi lo : Byte) : (hi ++ lo : Word).toNat = 256 * hi.toNat + lo.toNat := by
  rw [BitVec.toNat_append, ← Nat.shiftLeft_add_eq_or_of_lt lo.isLt, Nat.shiftLeft_eq, Nat.mul_comm]

/-- Settles O12. -/
theorem fetchIsBigEndian : Obligations.FetchIsBigEndian := fun _ h1 h2 =>
  ⟨_, State.fetch_of_inRange h1 h2, append_toNat _ _⟩

end Sys2Proof.Machine
end

section
/-! The encoding family (30_encoding.md): decoder and encoder are inverse to each other, and what that
says about the rows of the opcode map (R66) and the unassigned words (R68). The proofs cite
`decodeWord_eq_some_iff`; the fields of the formats are the lemmas of Laws/Decode. -/

namespace Sys2Proof

/-! ### A word is an encoding exactly when it has its fields (R61, R62) -/

theorem encA_eq_iff {op : Nibble} {nnn : Addr12} {w : Word} :
    encA op nnn = w ↔ fieldOp w = op ∧ fieldNNN w = nnn := by
  constructor
  · rintro rfl
    exact ⟨fieldOp_encA .., fieldNNN_encA ..⟩
  · rintro ⟨rfl, rfl⟩
    exact encA_fields w

theorem encXNN_eq_iff {op x : Nibble} {nn : Byte} {w : Word} :
    encXNN op x nn = w ↔ fieldOp w = op ∧ fieldX w = x ∧ fieldNN w = nn := by
  constructor
  · rintro rfl
    exact ⟨fieldOp_encXNN .., fieldX_encXNN .., fieldNN_encXNN ..⟩
  · rintro ⟨rfl, rfl, rfl⟩
    exact encXNN_fields w

theorem encXYN_eq_iff {op x y n : Nibble} {w : Word} :
    encXYN op x y n = w ↔ fieldOp w = op ∧ fieldX w = x ∧ fieldY w = y ∧ fieldN w = n := by
  constructor
  · rintro rfl
    exact ⟨fieldOp_encXYN .., fieldX_encXYN .., fieldY_encXYN .., fieldN_encXYN ..⟩
  · rintro ⟨rfl, rfl, rfl, rfl⟩
    exact encXYN_fields w

/-- The sixteen families of words, as a case split on the top nibble (R67). -/
theorem nibble_cases {motive : Nibble → Prop} (v0 : motive 0x0) (v1 : motive 0x1)
    (v2 : motive 0x2) (v3 : motive 0x3) (v4 : motive 0x4) (v5 : motive 0x5) (v6 : motive 0x6)
    (v7 : motive 0x7) (v8 : motive 0x8) (v9 : motive 0x9) (vA : motive 0xA) (vB : motive 0xB)
    (vC : motive 0xC) (vD : motive 0xD) (vE : motive 0xE) (vF : motive 0xF) (a : Nibble) :
    motive a := by
  have h : a = 0x0 ∨ a = 0x1 ∨ a = 0x2 ∨ a = 0x3 ∨ a = 0x4 ∨ a = 0x5 ∨ a = 0x6 ∨ a = 0x7 ∨
      a = 0x8 ∨ a = 0x9 ∨ a = 0xA ∨ a = 0xB ∨ a = 0xC ∨ a = 0xD ∨ a = 0xE ∨ a = 0xF := by
    revert a
    decide
  rcases h with rfl | rfl | rfl | rfl | rfl | rfl | rfl | rfl |
    rfl | rfl | rfl | rfl | rfl | rfl | rfl | rfl <;> assumption

/-! ### Decoding an encoding -/

/-- SYS is well formed when its word is none of the three that row 3 of R66 excludes. -/
theorem wellFormed_sys {nnn : Addr12} : (Instr.sys nnn).WellFormed ↔
    encA 0x0 nnn ≠ 0x0000 ∧ encA 0x0 nnn ≠ 0x00E0 ∧ encA 0x0 nnn ≠ 0x00EE := by
  have hinj (m : Addr12) : encA 0x0 nnn = encA 0x0 m ↔ nnn = m := by
    rw [encA_eq_iff, fieldOp_encA, fieldNNN_encA, and_iff_right rfl, eq_comm]
  change _ ↔ encA 0x0 nnn ≠ encA 0x0 0x000 ∧ encA 0x0 nnn ≠ encA 0x0 0x0E0 ∧
    encA 0x0 nnn ≠ encA 0x0 0x0EE
  simp only [ne_eq, hinj]
  simp [Instr.WellFormed, Instr.wellFormed]

theorem decodeFamily0_of_ne {w : Word} (h : w ≠ 0x0000 ∧ w ≠ 0x00E0 ∧ w ≠ 0x00EE) :
    decodeFamily0 w = some (.sys (fieldNNN w)) := by
  obtain ⟨hzero, hcls, hret⟩ := h
  rw [decodeFamily0, if_neg hcls, if_neg hret, if_neg hzero]

/-- The encoding's top nibble selects the family, and its low nibble or low byte the row in it. -/
theorem decodeWord_encode {i : Instr} (h : i.WellFormed) : decodeWord (encode i) = some i := by
  cases i with
  | cls | ret => rfl
  | sys nnn => simpa [encode, decodeWord] using decodeFamily0_of_ne (wellFormed_sys.1 h)
  | jp | call | ldI | jpV0 | seImm | sneImm | ldImm | addImm | rnd | drw | seReg | sneReg =>
    simp [encode, decodeWord]
  | ldReg | or | and | xor | addReg | sub | shr | subn | shl =>
    simp [encode, decodeWord, decodeFamily8]
  | skp | sknp => simp [encode, decodeWord, decodeFamilyE]
  | ldDT | ldKey | setDT | setST | addI | ldF | ldB | storeRegs | loadRegs =>
    simp [encode, decodeWord, decodeFamilyF]

/-- Settles O1. -/
theorem decodeOfEncodeIsTheInstruction : Obligations.DecodeOfEncodeIsTheInstruction := by
  intro i rest h
  have hword : decodeWord (encode i) = some i := decodeWord_encode h
  exact ⟨hword, by simp [decodeBytes, encodeBytes, hword]⟩

/-! ### Encoding what was decoded -/

theorem encode_of_decodeFamily0 {w : Word} {i : Instr} (hop : fieldOp w = 0x0)
    (h : decodeFamily0 w = some i) : encode i = w ∧ i.WellFormed := by
  rw [decodeFamily0] at h
  split_ifs at h with hcls hret hzero <;> cases h
  · exact ⟨hcls.symm, rfl⟩
  · exact ⟨hret.symm, rfl⟩
  · have hword : encA 0x0 (fieldNNN w) = w := encA_eq_iff.2 ⟨hop, rfl⟩
    exact ⟨hword, wellFormed_sys.2 (by rw [hword]; exact ⟨hzero, hcls, hret⟩)⟩

theorem encode_of_decodeFamily8 {w : Word} {i : Instr} (hop : fieldOp w = 0x8)
    (h : decodeFamily8 w = some i) : encode i = w ∧ i.WellFormed := by
  simp only [decodeFamily8] at h
  split_ifs at h <;> cases h <;> exact ⟨encXYN_eq_iff.2 ⟨hop, rfl, rfl, ‹_›⟩, rfl⟩

theorem encode_of_decodeFamilyE {w : Word} {i : Instr} (hop : fieldOp w = 0xE)
    (h : decodeFamilyE w = some i) : encode i = w ∧ i.WellFormed := by
  simp only [decodeFamilyE] at h
  split_ifs at h <;> cases h <;> exact ⟨encXNN_eq_iff.2 ⟨hop, rfl, ‹_›⟩, rfl⟩

theorem encode_of_decodeFamilyF {w : Word} {i : Instr} (hop : fieldOp w = 0xF)
    (h : decodeFamilyF w = some i) : encode i = w ∧ i.WellFormed := by
  simp only [decodeFamilyF] at h
  split_ifs at h <;> cases h <;> exact ⟨encXNN_eq_iff.2 ⟨hop, rfl, ‹_›⟩, rfl⟩

/-- The tests the decoder made and the fields it read are together the whole word. -/
theorem encode_of_decodeWord {w : Word} {i : Instr} (h : decodeWord w = some i) :
    encode i = w ∧ i.WellFormed := by
  cases hop : fieldOp w using nibble_cases <;>
    simp only [decodeWord, hop, BitVec.ofNat_eq_ofNat, BitVec.reduceEq, ↓reduceIte,
      Option.ite_none_right_eq_some, Option.some.injEq] at h
  case v0 => exact encode_of_decodeFamily0 hop h
  case v1 | v2 | vA | vB =>
    cases h
    exact ⟨encA_eq_iff.2 ⟨hop, rfl⟩, rfl⟩
  case v3 | v4 | v6 | v7 | vC =>
    cases h
    exact ⟨encXNN_eq_iff.2 ⟨hop, rfl, rfl⟩, rfl⟩
  case v5 | v9 =>
    obtain ⟨hn, rfl⟩ := h
    exact ⟨encXYN_eq_iff.2 ⟨hop, rfl, rfl, hn⟩, rfl⟩
  case v8 => exact encode_of_decodeFamily8 hop h
  case vD =>
    cases h
    exact ⟨encXYN_eq_iff.2 ⟨hop, rfl, rfl, rfl⟩, rfl⟩
  case vE => exact encode_of_decodeFamilyE hop h
  case vF => exact encode_of_decodeFamilyF hop h

/-- The decoder is the inverse of the encoder on the instructions of the opcode map. -/
theorem decodeWord_eq_some_iff {w : Word} {i : Instr} :
    decodeWord w = some i ↔ encode i = w ∧ i.WellFormed := by
  constructor
  · exact encode_of_decodeWord
  · rintro ⟨rfl, h⟩
    exact decodeWord_encode h

/-- Settles O2. -/
theorem encodeOfDecodeIsTheWord : Obligations.EncodeOfDecodeIsTheWord :=
  fun _ _ => decodeWord_eq_some_iff.1

/-! ### The rows of the opcode map (R66) -/

/-- Every row's mask covers the top nibble. -/
theorem fieldOp_and_rowMask (w : Word) (i : Instr) : fieldOp (w &&& rowMask i) = fieldOp w := by
  have hmask : (rowMask i).extractLsb' 12 4 = BitVec.allOnes 4 := by cases i <;> simp [rowMask]
  rw [fieldOp, BitVec.extractLsb'_and, hmask, BitVec.and_allOnes, fieldOp]

theorem fieldN_and_F00F (w : Word) : fieldN (w &&& 0xF00F) = fieldN w := by
  rw [fieldN, BitVec.extractLsb'_and]
  exact BitVec.and_allOnes

theorem fieldNN_and_F0FF (w : Word) : fieldNN (w &&& 0xF0FF) = fieldNN w := by
  rw [fieldNN, BitVec.extractLsb'_and]
  exact BitVec.and_allOnes

theorem rowMatch_eq_zero {i : Instr} : rowMatch i = 0x0000 ↔ ∃ nnn, i = .sys nnn := by
  cases i <;> simp [rowMatch]

/-- A word with a row's bits decodes to an instruction of that row: under the mask it has the nibbles
that the decoder tests. -/
theorem decodeWord_of_and_rowMask {w : Word} {i : Instr} (h : w &&& rowMask i = rowMatch i)
    (hsys : rowMatch i = 0x0000 → w ≠ 0x0000 ∧ w ≠ 0x00E0 ∧ w ≠ 0x00EE) :
    ∃ j, decodeWord w = some j ∧ rowMatch j = rowMatch i ∧ rowMask j = rowMask i := by
  have hop : fieldOp w = fieldOp (rowMatch i) := by rw [← h, fieldOp_and_rowMask]
  cases i with
  | cls | ret =>
    have hw : w = rowMatch _ := BitVec.and_allOnes.symm.trans h
    subst hw
    exact ⟨_, rfl, rfl, rfl⟩
  | sys =>
    have hword := decodeFamily0_of_ne (hsys rfl)
    simp +decide [decodeWord, hop, hword, rowMatch, rowMask]
  | jp | call | ldI | jpV0 | seImm | sneImm | ldImm | addImm | rnd | drw =>
    simp +decide [decodeWord, hop, rowMatch, rowMask]
  | seReg | sneReg | ldReg | or | and | xor | addReg | sub | shr | subn | shl =>
    have hn : fieldN w = fieldN (rowMatch _) := (fieldN_and_F00F w).symm.trans (congrArg fieldN h)
    simp +decide [decodeWord, decodeFamily8, hop, hn, rowMatch, rowMask]
  | skp | sknp | ldDT | ldKey | setDT | setST | addI | ldF | ldB | storeRegs | loadRegs =>
    have hnn : fieldNN w = fieldNN (rowMatch _) :=
      (fieldNN_and_F0FF w).symm.trans (congrArg fieldNN h)
    simp +decide [decodeWord, decodeFamilyE, decodeFamilyF, hop, hnn, rowMatch, rowMask]

/-- Settles O4. -/
theorem wordIsInARowExactlyByMaskAndMatch : Obligations.WordIsInARowExactlyByMaskAndMatch := by
  intro w i
  constructor
  · rintro ⟨j, hj, hmatch, hmask⟩
    obtain ⟨rfl, hwf⟩ := decodeWord_eq_some_iff.1 hj
    refine ⟨by rw [← hmatch, ← hmask, encode_and_rowMask], fun hzero => ?_⟩
    obtain ⟨nnn, rfl⟩ := rowMatch_eq_zero.1 (hmatch.trans hzero)
    exact wellFormed_sys.1 hwf
  · rintro ⟨h, hsys⟩
    exact decodeWord_of_and_rowMask h hsys

/-! ### The unassigned words (R65, R68) -/

theorem decodeFamily0_eq_none {w : Word} : decodeFamily0 w = none ↔ w = 0x0000 := by
  constructor
  · intro h
    obtain ⟨-, -, hzero⟩ : ¬ w = 0x00E0 ∧ ¬ w = 0x00EE ∧ w = 0x0000 := by
      simpa [decodeFamily0, ite_eq_iff] using h
    exact hzero
  · rintro rfl
    rfl

theorem decodeFamily8_eq_none {w : Word} :
    decodeFamily8 w = none ↔ fieldN w ∈ [0x8, 0x9, 0xA, 0xB, 0xC, 0xD, 0xF] := by
  simp only [decodeFamily8, ite_eq_iff, reduceCtorEq, and_false, false_or]
  generalize fieldN w = n
  revert n
  decide

theorem decodeFamilyE_eq_none {w : Word} :
    decodeFamilyE w = none ↔ fieldNN w ∉ [0x9E, 0xA1] := by
  simp [decodeFamilyE, ite_eq_iff]

theorem decodeFamilyF_eq_none {w : Word} :
    decodeFamilyF w = none ↔
      fieldNN w ∉ [0x07, 0x0A, 0x15, 0x18, 0x1E, 0x29, 0x33, 0x55, 0x65] := by
  simp [decodeFamilyF, ite_eq_iff]

/-- Settles O5: each entry of the table is where one family's decoder answers nothing, and the other
families are assigned in full. -/
theorem unknownWordsAreTheUnassignedOnes : Obligations.UnknownWordsAreTheUnassignedOnes := by
  intro w
  have hzero : w = 0x0000 ↔ fieldOp w = 0x0 ∧ decodeFamily0 w = none := by
    rw [decodeFamily0_eq_none]
    exact ⟨by rintro rfl; decide, And.right⟩
  rw [hzero, ← decodeFamily8_eq_none, ← decodeFamilyE_eq_none, ← decodeFamilyF_eq_none]
  cases hop : fieldOp w using nibble_cases <;> simp [decodeWord, hop]

/-! ### Match value and fields (R76) -/

theorem encA_eq_or (op : Nibble) (nnn : Addr12) :
    encA op nnn = encA op 0 ||| nnn.setWidth 16 := by
  ext i hi; simp [encA]; grind

theorem encXNN_eq_or (op x : Nibble) (nn : Byte) :
    encXNN op x nn = encXNN op 0 0 ||| (x.setWidth 16 <<< 8 ||| nn.setWidth 16) := by
  ext i hi; simp [encXNN]; grind

/-- The same where the low byte is the row's own. -/
theorem encXNN_eq_or_x (op x : Nibble) (nn : Byte) :
    encXNN op x nn = encXNN op 0 nn ||| x.setWidth 16 <<< 8 := by
  ext i hi; simp [encXNN]; grind

theorem encXYN_eq_or (op x y n : Nibble) :
    encXYN op x y n =
      encXYN op 0 0 0 ||| (x.setWidth 16 <<< 8 ||| y.setWidth 16 <<< 4 ||| n.setWidth 16) := by
  ext i hi; simp [encXYN]; grind

/-- The same where the low nibble is the row's own. -/
theorem encXYN_eq_or_xy (op x y n : Nibble) :
    encXYN op x y n = encXYN op 0 0 n ||| (x.setWidth 16 <<< 8 ||| y.setWidth 16 <<< 4) := by
  ext i hi; simp [encXYN]; grind

theorem encode_eq_rowMatch_or_operandBits (i : Instr) : encode i = rowMatch i ||| operandBits i := by
  cases i with
  | cls | ret => rfl
  | sys | jp | call | ldI | jpV0 => exact encA_eq_or _ _
  | seImm | sneImm | ldImm | addImm | rnd => exact encXNN_eq_or _ _ _
  | skp | sknp | ldDT | ldKey | setDT | setST | addI | ldF | ldB | storeRegs | loadRegs =>
    exact encXNN_eq_or_x _ _ _
  | drw => exact encXYN_eq_or _ _ _ _
  | seReg | sneReg | ldReg | or | and | xor | addReg | sub | shr | subn | shl =>
    exact encXYN_eq_or_xy _ _ _ _

/-- Settles O3. -/
theorem encodingIsMatchOrFields : Obligations.EncodingIsMatchOrFields :=
  ⟨encode_eq_rowMatch_or_operandBits, rfl, rfl⟩

/-- Settles O6: each word is the encoding of the instruction it stands for. -/
theorem wordsWrittenFromTheFormatsDecode : Obligations.WordsWrittenFromTheFormatsDecode :=
  ⟨decodeWord_encode (i := .cls) rfl, decodeWord_encode (i := .call 0x312) rfl,
    decodeWord_encode (i := .seReg 0x3 0xA) rfl, decodeWord_encode (i := .sub 0x6 0xB) rfl,
    decodeWord_encode (i := .drw 0x1 0x2 0x5) rfl, decodeWord_encode (i := .sknp 0x5) rfl,
    decodeWord_encode (i := .storeRegs 0x2) rfl⟩

end Sys2Proof
end

section
/-! The pipeline family (40_pipeline.md): what a step does after each outcome of the stages before
execute (R78 to R83), and that execute answers a state for every instruction (R87). -/

namespace Sys2Proof.Machine

/-! ### Every instruction and every step answers a state -/

/-- SYS halts or does nothing (R91). -/
theorem execSys_answers (nnn : Addr12) (s : State) : ∃ t, execSys nnn s = .next t := by
  unfold execSys
  cases s.cfg.sys with
  | unknown => exact ⟨_, rfl⟩
  | nop => exact ⟨_, rfl⟩

/-- RET halts or pops (R92). -/
theorem execRet_answers (s : State) : ∃ t, execRet s = .next t := by
  unfold execRet
  split
  · exact ⟨_, rfl⟩
  · exact ⟨_, rfl⟩

/-- CALL halts or pushes (R95). -/
theorem execCall_answers (nnn : Addr12) (s : State) : ∃ t, execCall nnn s = .next t := by
  unfold execCall
  split
  · exact ⟨_, rfl⟩
  · exact ⟨_, rfl⟩

/-- A key query that halts, one that is not asked and one that is asked all answer (R120). -/
theorem skipOnKey_answers (x : Nibble) (wanted : Bool) (s : State) :
    ∃ t, skipOnKey x wanted s = .next t := by
  unfold skipOnKey
  cases keyIndex s.cfg (s.reg x) with
  | halt r => exact ⟨_, rfl⟩
  | notAsked => exact ⟨_, rfl⟩
  | ask k => exact ⟨_, rfl⟩

/-- A block store halts at its first failed check or stores (R46). -/
theorem storeBlock_answers (s : State) (bytes : List Byte) (after : State → State) :
    ∃ t, storeBlock s bytes after = .next t := by
  unfold storeBlock
  cases firstFailure (checkWrite s.cfg) s.I.toNat bytes.length with
  | some r => exact ⟨_, rfl⟩
  | none => exact ⟨_, rfl⟩

/-- A block load halts at its first failed check or loads (R133). -/
theorem execLoadRegs_answers (x : Nibble) (s : State) : ∃ t, execLoadRegs x s = .next t := by
  unfold execLoadRegs
  cases firstFailure (checkRead s.cfg) s.I.toNat (x.toNat + 1) with
  | some r => exact ⟨_, rfl⟩
  | none => exact ⟨_, rfl⟩

/-- A draw halts at its first failed check or draws (R116). -/
theorem execDrw_answers (x y n : Nibble) (s : State) : ∃ t, execDrw x y n s = .next t := by
  unfold execDrw
  cases firstFailure (checkRead s.cfg) s.I.toNat n.toNat with
  | some r => exact ⟨_, rfl⟩
  | none => exact ⟨_, rfl⟩

/-- An instruction that makes no check has its next state written out; each check's failure is a halted
state (log 1). -/
theorem exec_answers (i : Instr) (s : State) : ∃ t, exec i s = .next t := by
  cases i with
  | sys nnn => exact execSys_answers nnn s
  | ret => exact execRet_answers s
  | call nnn => exact execCall_answers nnn s
  | skp x | sknp x => exact skipOnKey_answers x _ s
  | ldB x => exact storeBlock_answers s (bcdDigits (s.reg x)) id
  | storeRegs x =>
    exact storeBlock_answers s (s.regsUpTo x) fun t => t.setI (indexAfter s.cfg s.I x)
  | loadRegs x => exact execLoadRegs_answers x s
  | drw x y n => exact execDrw_answers x y n s
  | cls | jp | jpV0 | seImm | sneImm | seReg | sneReg
  | ldImm | addImm | ldReg | or | and | xor | addReg | sub | subn | shr | shl | rnd
  | ldI | addI | ldF | ldDT | ldKey | setDT | setST => exact ⟨_, rfl⟩

/-- The stages before execute end the step in a state or hand over an instruction (R86). -/
theorem step_answers (s : State) : ∃ t, step s = .next t := by
  unfold step
  cases s.frontEnd with
  | stop t => exact ⟨t, rfl⟩
  | run i t => exact exec_answers i t

/-- Settles O13. -/
theorem everyStepAnswersAState : Obligations.EveryStepAnswersAState :=
  ⟨step_answers, exec_answers⟩

/-! ### The step, by the outcome of each stage -/

theorem step_of_halted {s : State} {r : HaltResult} (h : s.phase = .halted r) :
    step s = .next s := by
  simp only [step, State.frontEnd, h]

/-- The step's result for the host is the result that halted the core (R78). -/
theorem State.result_of_halted {s : State} {r : HaltResult} (h : s.phase = .halted r) :
    s.result = .halt r := by
  simp only [State.result, h]

/-- A running core whose fetch gives a word does what that word asks (R80 to R83). -/
theorem State.frontEnd_of_fetch {s : State} {w : Word} (hrun : s.phase = .running)
    (h : s.fetch = .ok w) : s.frontEnd = s.issue w := by
  simp only [State.frontEnd, hrun, h]

theorem State.issue_zero (s : State) : s.issue 0x0000 = .stop (s.raise .haltedNormally) := rfl

theorem State.issue_of_unknown {w : Word} (hw : w ≠ 0x0000) (hdec : decodeWord w = none)
    (s : State) : s.issue w = .stop ((s.setPc (s.pc + 2)).raise (.unknownOpcode w)) := by
  rw [State.issue, if_neg hw, hdec, State.advance_eq]

/-- A word that decodes is not the sentinel: 0x0000 decodes to nothing (R65). -/
theorem ne_zero_of_decodeWord {w : Word} {i : Instr} (h : decodeWord w = some i) : w ≠ 0x0000 := by
  rintro rfl
  cases h

theorem State.issue_of_decodeWord {w : Word} {i : Instr} (hdec : decodeWord w = some i)
    (s : State) : s.issue w = .run i (s.setPc (s.pc + 2)) := by
  rw [State.issue, if_neg (ne_zero_of_decodeWord hdec), hdec, State.advance_eq]

/-- Settles O10. -/
theorem stepOnAHaltedCoreChangesNothing : Obligations.StepOnAHaltedCoreChangesNothing :=
  fun _ _ h => ⟨step_of_halted h, State.result_of_halted h⟩

/-- Settles O8. -/
theorem sentinelHaltsWithoutMutation : Obligations.SentinelHaltsWithoutMutation := by
  intro s hrun hhi hlo hword
  have hfetch : s.fetch = .ok 0x0000 := hword ▸ State.fetch_of_inRange hhi hlo
  rw [step, State.frontEnd_of_fetch hrun hfetch, State.issue_zero]
  rfl

/-- Settles O9. -/
theorem unknownOpcodeHaltsWithTheWord : Obligations.UnknownOpcodeHaltsWithTheWord := by
  intro s w hrun hhi hlo hword hw hdec
  have hfetch : s.fetch = .ok w := hword ▸ State.fetch_of_inRange hhi hlo
  rw [step, State.frontEnd_of_fetch hrun hfetch, State.issue_of_unknown hw hdec]
  rfl

/-- Settles O7. -/
theorem stepRunsTheDecodedInstruction : Obligations.StepRunsTheDecodedInstruction := by
  intro s i hrun hhi hlo hdec
  rw [step, State.frontEnd_of_fetch hrun (State.fetch_of_inRange hhi hlo),
    State.issue_of_decodeWord hdec]
  rfl

end Sys2Proof.Machine
end

section
/-! The control-flow family (41_control_flow.md): SYS, the jumps, the call stack and the four
compare-and-skip instructions. Each proof gives the instruction's next state by an equation and takes the
frame from the frames of the updates in it. -/

namespace Sys2Proof.Machine

/-! ### Frames -/

/-- A piece of state that ends as it began needs no place in a frame. -/
theorem Frame.of_restored {regs : Nibble → Prop} {f : Field} {fields : List Field} {s t : State}
    (h : Frame regs (f :: fields) s t) (hf : f.Same s t) : Frame regs fields s t := by
  refine ⟨h.1, fun g hg => ?_⟩
  by_cases e : g = f
  · exact e ▸ hf
  · exact h.2 g (List.not_mem_cons_of_ne_of_not_mem e hg)

/-- A skip writes `pc` at most (R96). -/
theorem Frame.skipIf (s : State) (taken : Bool) : Frame noReg [.pc] s (s.skipIf taken) := by
  rw [State.skipIf_eq]
  exact .setPc s _

/-- A pop and a jump: what RET writes (R92). -/
theorem Frame.pop_setPc (s : State) (a : Word) : Frame noReg [.pc, .sp] s (s.pop.setPc a) :=
  ((Frame.pop s).weaken (fun _ h => h) (by simp)).trans
    ((Frame.setPc _ a).weaken (fun _ h => h) (by simp))

/-- A push and a jump: what CALL writes (R95). -/
theorem Frame.push_setPc (s : State) (a b : Word) :
    Frame noReg [.pc, .sp, .stack] s ((s.push a).setPc b) :=
  ((Frame.push s a).weaken (fun _ h => h) (by simp)).trans
    ((Frame.setPc _ b).weaken (fun _ h => h) (by simp))

/-! ### The call stack -/

theorem exec_ret_of_empty {s : State} (h : s.sp = 0) :
    exec .ret s = .next (s.raise .stackUnderflow) := if_pos h

theorem exec_ret_of_nonempty {s : State} (h : s.sp ≠ 0) :
    exec .ret s = .next (s.pop.setPc s.top) := if_neg h

theorem exec_call_of_full {s : State} (h : s.sp = 15) (nnn : Addr12) :
    exec (.call nnn) s = .next (s.raise .stackOverflow) := if_pos h

theorem exec_call_of_not_full {s : State} (h : s.sp ≠ 15) (nnn : Addr12) :
    exec (.call nnn) s = .next ((s.push s.pc).setPc (address nnn)) := if_neg h

/-- Below 15, `sp` does not wrap (R27). -/
theorem State.push_sp_toNat {s : State} (h : s.sp ≠ 15) (a : Word) :
    (s.push a).sp.toNat = s.sp.toNat + 1 := by
  rw [State.push_sp]
  bv_omega

/-- Above 0, `sp` does not wrap (R27). -/
theorem State.pop_sp_toNat {s : State} (h : s.sp ≠ 0) : s.pop.sp.toNat + 1 = s.sp.toNat := by
  rw [State.pop_sp]
  bv_omega

/-- A push writes the entry above the top and no other (R95, R29). -/
theorem State.push_stack_getElem {s : State} (h : s.sp ≠ 15) (a : Word) (j : Nat) (hj : j < 16) :
    (s.push a).stack[j] = if j = s.sp.toNat + 1 then a else s.stack[j] := by
  have htop : (s.sp + 1).toNat = s.sp.toNat + 1 := s.push_sp_toNat h a
  simp only [State.push_stack, Vector.getElem_set, htop, eq_comm]

/-! ### The addresses of the jumps -/

/-- Zero extension keeps the address (R13, R63). -/
theorem address_toNat (nnn : Addr12) : (address nnn).toNat = nnn.toNat := by
  rw [address, BitVec.toNat_setWidth]
  omega

/-- The sum of a 12-bit address and a byte fits in 16 bits, so nothing is reduced (R94). -/
theorem State.jumpV0Target_toNat (s : State) (nnn : Addr12) :
    (s.jumpV0Target nnn).toNat = nnn.toNat + (s.reg 0x0).toNat := by
  rw [State.jumpV0Target, BitVec.toNat_add, address_toNat, zext16, BitVec.toNat_setWidth]
  omega

/-! ### The skips -/

/-- A skip on a comparison that holds (R96, R98). -/
theorem State.skipIf_pc (s : State) (p : Prop) [Decidable p] :
    (s.skipIf (decide p)).pc = if p then s.pc + 2 else s.pc := by
  simp only [State.skipIf_eq, State.setPc_pc, decide_eq_true_eq]

/-- A skip on a comparison that fails (R97, R99). -/
theorem State.skipIf_not_pc (s : State) (p : Prop) [Decidable p] :
    (s.skipIf (decide ¬p)).pc = if p then s.pc else s.pc + 2 := by
  rw [State.skipIf_pc, ite_not]

/-! ### The word of SYS -/

/-- The word of SYS is its address field (R66, R76). -/
theorem encode_sys (nnn : Addr12) : encode (.sys nnn) = nnn.setWidth 16 :=
  (encode_eq_rowMatch_or_operandBits (.sys nnn)).trans BitVec.zero_or

/-! ### The statements -/

/-- Settles O30, by whether the stack is empty. -/
theorem returnPopsOrUnderflows : Obligations.ReturnPopsOrUnderflows := fun s =>
  ⟨exec_ret_of_empty, fun h =>
    ⟨_, exec_ret_of_nonempty h, rfl, State.pop_sp_toNat h, .pop_setPc s _⟩⟩

/-- Settles O33, by whether the stack is full. -/
theorem callPushesOrOverflows : Obligations.CallPushesOrOverflows := fun s nnn =>
  ⟨fun h => exec_call_of_full h nnn, fun h =>
    ⟨_, exec_call_of_not_full h nnn, State.push_sp_toNat h s.pc, address_toNat nnn,
      State.push_stack_getElem h s.pc, .push_setPc s _ _⟩⟩

/-- Settles O34, from what a call and a return do: the return pops the entry that the call pushed. -/
theorem callThenReturnRestoresPc : Obligations.CallThenReturnRestoresPc := by
  intro s nnn hsp
  obtain ⟨t, hcall, hpush, -, hstack, hframe⟩ := (callPushesOrOverflows s nnn).2 hsp
  have hne : t.sp ≠ 0 := by
    intro h0
    rw [h0] at hpush
    cases hpush
  obtain ⟨u, hret, htop, hpop, hframe'⟩ := (returnPopsOrUnderflows t).2 hne
  have hpc : u.pc = s.pc := by rw [htop, hstack _ t.sp.isLt, if_pos hpush]
  have hsp' : u.sp = s.sp := BitVec.eq_of_toNat_eq (by omega)
  have hboth : Frame noReg [.pc, .sp, .stack] s u :=
    hframe.trans (hframe'.weaken (fun _ h => h) (by simp))
  exact ⟨t, u, hcall, hret, hpc, hsp', (hboth.of_restored hpc).of_restored hsp'⟩

/-- Settles O35: all four are `State.skipIf` of their comparison. -/
theorem skipsAddTwoWhenTaken : Obligations.SkipsAddTwoWhenTaken := fun s _ _ _ =>
  ⟨⟨_, rfl, .skipIf s _, s.skipIf_pc _⟩, ⟨_, rfl, .skipIf s _, s.skipIf_not_pc _⟩,
    ⟨_, rfl, .skipIf s _, s.skipIf_pc _⟩, ⟨_, rfl, .skipIf s _, s.skipIf_not_pc _⟩⟩

/-- Settles O29, by the setting of `P_SYS`. -/
theorem sysFollowsItsParameter : Obligations.SysFollowsItsParameter := by
  intro s nnn
  constructor
  · intro h
    rw [← encode_sys]
    simp only [exec, execSys, h]
    rfl
  · intro h
    simp only [exec, execSys, h]

/-- Settles O31. -/
theorem jumpSetsPc : Obligations.JumpSetsPc := fun s nnn =>
  ⟨_, rfl, address_toNat nnn, .setPc s _⟩

/-- Settles O32. -/
theorem jumpV0AddsV0Unmasked : Obligations.JumpV0AddsV0Unmasked := fun s nnn =>
  ⟨_, rfl, s.jumpV0Target_toNat nnn, .setPc s _⟩

end Sys2Proof.Machine
end

section
/-! The ALU family (42_alu.md): register loads, the 8-bit arithmetic and bitwise operations, the shifts
and RND. An instruction's next state is one register update of the model; what the updates leave in the
registers and what the byte operations are in numbers is said here once, and each proof joins the two. -/

namespace Sys2Proof.Machine

/-! ### The registers after a result and a flag (R114) -/

/-- Where the flag is written last, it is what `VF` holds. -/
theorem State.setResultThenFlag_reg_flag (s : State) (x : Nibble) (b f : Byte) :
    (s.setResultThenFlag x b f).reg 0xF = f := by
  rw [State.setResultThenFlag_reg, if_pos rfl]

theorem State.setResultThenFlag_reg_result (s : State) {x : Nibble} (hx : x ≠ 0xF) (b f : Byte) :
    (s.setResultThenFlag x b f).reg x = b := by
  rw [State.setResultThenFlag_reg, if_neg hx, if_pos rfl]

/-- Below 0xF the shift takes the captured operand, whatever `P_SHIFT_VF`. -/
theorem State.setFlagThenShift_reg_result (s : State) {x : Nibble} (hx : x ≠ 0xF) (f : Byte)
    (g : Byte → Byte) : (s.setFlagThenShift x f g).reg x = g (s.reg x) := by
  rw [State.setFlagThenShift_reg, if_pos rfl, if_neg fun h => hx h.1]

theorem State.setFlagThenShift_reg_flag (s : State) {x : Nibble} (hx : x ≠ 0xF) (f : Byte)
    (g : Byte → Byte) : (s.setFlagThenShift x f g).reg 0xF = f := by
  rw [State.setFlagThenShift_reg, if_neg (Ne.symm hx), if_pos rfl]

theorem State.setFlagThenShift_vf_of_operandCaptured {s : State}
    (h : s.cfg.shiftVF = .operandCaptured) (f : Byte) (g : Byte → Byte) :
    (s.setFlagThenShift 0xF f g).reg 0xF = g (s.reg 0xF) := by
  rw [State.setFlagThenShift_reg, if_pos rfl, if_neg (by simp [h])]

theorem State.setFlagThenShift_vf_of_inPlace {s : State} (h : s.cfg.shiftVF = .inPlace) (f : Byte)
    (g : Byte → Byte) : (s.setFlagThenShift 0xF f g).reg 0xF = g f := by
  rw [State.setFlagThenShift_reg, if_pos rfl, if_pos ⟨rfl, h⟩]

/-! ### Flags and results in numbers (R101, R108 to R112) -/

theorem flag_decide (p : Prop) [Decidable p] : flag (decide p) = if p then 1 else 0 := by
  simp only [flag, decide_eq_true_eq]

theorem carry_eq_ite (a b : Byte) : carry a b = if a.toNat + b.toNat > 255 then 1 else 0 :=
  flag_decide _

theorem noBorrow_eq_ite (a b : Byte) : noBorrow a b = if a.toNat ≥ b.toNat then 1 else 0 :=
  flag_decide _

/-- A byte difference as the spec writes it, 256 added before the subtraction (R109, R111). -/
theorem byte_sub_toNat (a b : Byte) : (a - b).toNat = (a.toNat + 256 - b.toNat) % 256 := by
  rw [BitVec.toNat_sub]
  omega

theorem byte_ushiftRight_one_toNat (a : Byte) : (a >>> 1).toNat = a.toNat / 2 := by
  rw [BitVec.toNat_ushiftRight, Nat.shiftRight_eq_div_pow, pow_one]

theorem byte_shiftLeft_one_toNat (a : Byte) : (a <<< 1).toNat = 2 * a.toNat % 256 := by
  rw [BitVec.toNat_shiftLeft, Nat.shiftLeft_eq, pow_one, mul_comm]

/-! ### Addition and subtraction -/

/-- Settles O39: the flag is written after the sum. -/
theorem addSetsSumThenCarry : Obligations.AddSetsSumThenCarry := by
  intro s x y
  refine ⟨_, rfl, fun hx => ?_, ?_, .setResultThenFlag s x _ _⟩
  · rw [State.setResultThenFlag_reg_result s hx, BitVec.toNat_add]
  · rw [State.setResultThenFlag_reg_flag, carry_eq_ite]

/-- SUB and SUBN are one update with their operands `a` and `b` in either order (R109, R111). -/
theorem State.setResultThenFlag_sub (s : State) (x : Nibble) (a b : Byte) :
    (x ≠ 0xF → ((s.setResultThenFlag x (a - b) (noBorrow a b)).reg x).toNat =
      (a.toNat + 256 - b.toNat) % 256) ∧
    (s.setResultThenFlag x (a - b) (noBorrow a b)).reg 0xF =
      (if a.toNat ≥ b.toNat then 1 else 0) ∧
    Frame (regAndVF x) [] s (s.setResultThenFlag x (a - b) (noBorrow a b)) := by
  refine ⟨fun hx => ?_, ?_, .setResultThenFlag s x _ _⟩
  · rw [State.setResultThenFlag_reg_result s hx, byte_sub_toNat]
  · rw [State.setResultThenFlag_reg_flag, noBorrow_eq_ite]

/-- Settles O40. -/
theorem subtractSetsDifferenceThenNoBorrow : Obligations.SubtractSetsDifferenceThenNoBorrow :=
  fun s x y => ⟨_, rfl, s.setResultThenFlag_sub x (s.reg x) (s.reg y)⟩

/-- Settles O41. -/
theorem subtractReversedSwapsTheOperands : Obligations.SubtractReversedSwapsTheOperands :=
  fun s x y => ⟨_, rfl, s.setResultThenFlag_sub x (s.reg y) (s.reg x)⟩

/-! ### The shifts -/

/-- Both shifts in numbers: `shift` is what the byte operation `g` does, `out` the bit it shifts out
(R110, R112). -/
theorem State.setFlagThenShift_toNat (s : State) (x : Nibble) {f : Byte} {g : Byte → Byte}
    (shift out : Nat → Nat) (hg : ∀ a, (g a).toNat = shift a.toNat)
    (hf : f.toNat = out (s.reg x).toNat) :
    (x ≠ 0xF → ((s.setFlagThenShift x f g).reg x).toNat = shift (s.reg x).toNat ∧
      ((s.setFlagThenShift x f g).reg 0xF).toNat = out (s.reg x).toNat) ∧
    (x = 0xF → s.cfg.shiftVF = .operandCaptured →
      ((s.setFlagThenShift x f g).reg 0xF).toNat = shift (s.reg 0xF).toNat) ∧
    (x = 0xF → s.cfg.shiftVF = .inPlace →
      ((s.setFlagThenShift x f g).reg 0xF).toNat = shift (out (s.reg 0xF).toNat)) := by
  refine ⟨fun hx => ⟨?_, ?_⟩, ?_, ?_⟩
  · rw [State.setFlagThenShift_reg_result s hx, hg]
  · rw [State.setFlagThenShift_reg_flag s hx, hf]
  · rintro rfl hcfg
    rw [State.setFlagThenShift_vf_of_operandCaptured hcfg, hg]
  · rintro rfl hcfg
    rw [State.setFlagThenShift_vf_of_inPlace hcfg, hg, hf]

/-- Settles O42, by whether `x` is 0xF and then by the setting of `P_SHIFT_VF`. -/
theorem shiftRightOfVx : Obligations.ShiftRightOfVx := by
  intro s x y
  obtain ⟨hbelow, hcaptured, hinPlace⟩ := s.setFlagThenShift_toNat x (· / 2) (· % 2)
    byte_ushiftRight_one_toNat (shiftedOut_toNat (s.reg x)).1
  exact ⟨_, rfl, hbelow, hcaptured, hinPlace, .setFlagThenShift s x _ _, fun _ => rfl⟩

/-- Settles O43, by whether `x` is 0xF and then by the setting of `P_SHIFT_VF`. -/
theorem shiftLeftOfVx : Obligations.ShiftLeftOfVx := by
  intro s x y
  obtain ⟨hbelow, hcaptured, hinPlace⟩ := s.setFlagThenShift_toNat x (2 * · % 256) (· / 128)
    byte_shiftLeft_one_toNat (shiftedOut_toNat (s.reg x)).2
  exact ⟨_, rfl, hbelow, hcaptured, hinPlace, .setFlagThenShift s x _ _, fun _ => rfl⟩

/-! ### The writers of `V[x]` alone -/

/-- Settles O36: both loads are one register write. -/
theorem registerLoadsCopyTheirValue : Obligations.RegisterLoadsCopyTheirValue := fun s x y nn =>
  ⟨⟨_, rfl, s.setReg_reg_self x nn, .setReg s x nn⟩,
    ⟨_, rfl, s.setReg_reg_self x (s.reg y), .setReg s x (s.reg y)⟩⟩

/-- Settles O37. -/
theorem addImmediateWrapsWithoutFlag : Obligations.AddImmediateWrapsWithoutFlag := by
  intro s x nn
  refine ⟨_, rfl, ?_, .setReg s x _⟩
  rw [State.setReg_reg_self, BitVec.toNat_add]

/-- Settles O38. -/
theorem bitwiseOperationsActBitByBit : Obligations.BitwiseOperationsActBitByBit := by
  intro s x y
  refine ⟨⟨_, rfl, .setReg s x _, fun k _ => ?_⟩, ⟨_, rfl, .setReg s x _, fun k _ => ?_⟩,
    ⟨_, rfl, .setReg s x _, fun k _ => ?_⟩⟩
  · rw [State.setReg_reg_self, BitVec.getLsbD_or]
  · rw [State.setReg_reg_self, BitVec.getLsbD_and]
  · rw [State.setReg_reg_self, BitVec.getLsbD_xor]

/-- A draw and a write of `V[x]`: what RND writes (R113). -/
theorem Frame.drawn_setReg (s : State) (x : Nibble) (b : Byte) :
    Frame (onlyReg x) [.draws] s (s.drawn.setReg x b) :=
  ((Frame.drawn s).weaken (fun _ h => h.elim) (by simp)).trans
    ((Frame.setReg _ x b).weaken (fun _ h => h) (by simp))

/-- RND on the free byte of its draw (R113, log 4). -/
theorem exec_rnd (s : State) (x : Nibble) (nn : Byte) :
    exec (.rnd x nn) s = .next (s.drawn.setReg x (Config.randByte s.draws &&& nn)) := rfl

/-- Settles O44: the bits of the mask decide, and the two extreme masks clear and keep every bit. -/
theorem randomMasksOneDraw : Obligations.RandomMasksOneDraw := by
  intro s x nn
  refine ⟨_, exec_rnd s x nn, fun k _ => ?_, ?_, ?_, rfl, .drawn_setReg s x _⟩
  · rw [State.setReg_reg_self, BitVec.getLsbD_and]
  · rintro rfl
    rw [State.setReg_reg_self]
    exact BitVec.and_zero
  · rintro rfl
    rw [State.setReg_reg_self]
    exact BitVec.and_allOnes

end Sys2Proof.Machine
end

section
/-! The display family (43_display.md): CLS and DRW. A draw is the plotting of a list of cells, so the
laws of that plotting give its cells and its collision flag; a second draw at the same place plots the
same list. -/

namespace Sys2Proof.Machine

/-! ### Clearing -/

/-- Settles O45: CLS is the one update that stores the dark display. -/
theorem clearScreenDarkensEveryCell : Obligations.ClearScreenDarkensEveryCell := fun s =>
  ⟨_, rfl, fun k _ => cell_darkDisplay k, .setDisp s darkDisplay⟩

/-! ### One draw -/

/-- A display and a write of `VF`: what DRW writes (R116, R118). -/
theorem Frame.setDisp_setReg (s : State) (d : Display) (x : Nibble) (b : Byte) :
    Frame (onlyReg x) [.disp] s ((s.setDisp d).setReg x b) :=
  ((Frame.setDisp s d).weaken (fun _ h => h.elim) (by simp)).trans
    ((Frame.setReg _ x b).weaken (fun _ h => h) (by simp))

/-- Each cell is turned over once for each sprite bit that hits it (R116, R117). -/
theorem State.drawCells_cell (s : State) (x y n : Nibble) {k : Nat} (hk : k < 2048) :
    cell (plotCells ⟨s.disp, false⟩ (s.drawCells x y n)).disp k =
      xor (cell s.disp k) (decide (s.spriteHits x y n k % 2 = 1)) := by
  rw [plotCells_cell _ (s.drawCells_lt x y n) _ hk, State.drawCells_count]

/-- A draw collides where it hits a lit cell, or hits a cell twice (R118). -/
theorem State.drawCells_hit (s : State) (x y n : Nibble) :
    (plotCells ⟨s.disp, false⟩ (s.drawCells x y n)).hit = true ↔ ∃ k < 2048,
      (1 ≤ s.spriteHits x y n k ∧ cell s.disp k = true) ∨ 2 ≤ s.spriteHits x y n k := by
  simp only [plotCells_hit _ (s.drawCells_lt x y n), State.drawCells_count, Bool.false_eq_true,
    false_or]

/-- Settles O46: the cells and the collision are those of plotting the draw's cells, and `VF` holds the
collision as a flag. -/
theorem drawXorsTheSpriteAndDetectsCollision :
    Obligations.DrawXorsTheSpriteAndDetectsCollision := by
  intro s x y n hrange
  refine ⟨_, execDrw_of_inRange hrange, fun k hk => s.drawCells_cell x y n hk, ?_, ?_,
    .setDisp_setReg s _ 0xF _⟩
  · rw [State.setReg_reg_self]
    exact flag_eq_zero_or_one _
  · rw [State.setReg_reg_self, flag_eq_one]
    exact s.drawCells_hit x y n

/-! ### The same draw again -/

/-- What a draw hits depends on its two registers, `I`, memory and the parameters alone. -/
theorem State.spriteHits_congr {s t : State} {x y : Nibble} (hx : t.reg x = s.reg x)
    (hy : t.reg y = s.reg y) (hI : t.I = s.I) (hmem : ∀ a, t.byteAt a = s.byteAt a)
    (hcfg : t.cfg = s.cfg) (n : Nibble) (k : Nat) :
    t.spriteHits x y n k = s.spriteHits x y n k := by
  simp only [State.spriteHits, State.spriteBit, hx, hy, hI, hmem, hcfg]

/-- A first draw leaves what its own coordinates, sprite and address are read from, unless `VF` is a
coordinate, so that the same draw hits the same cells again. -/
theorem Frame.spriteHits_eq {s t : State} (h : Frame (onlyReg 0xF) [.disp] s t) {x y : Nibble}
    (hx : x ≠ 0xF) (hy : y ≠ 0xF) (n : Nibble) (k : Nat) :
    t.spriteHits x y n k = s.spriteHits x y n k := by
  obtain ⟨hreg, hfield⟩ := h
  exact State.spriteHits_congr (hreg x hx) (hreg y hy) (hfield .I (by simp)) (hfield .mem (by simp))
    (hfield .cfg (by simp)) n k

/-- A draw with its sprite in range turns over the cells it hits an odd number of times, and keeps its
frame (R116). -/
theorem exec_drw_of_inRange {x y n : Nibble} {s t : State} (h : exec (.drw x y n) s = .next t)
    (hrange : ∀ r < n.toNat, s.inRange (s.I.toNat + r)) :
    (∀ k < 2048, cell t.disp k =
      xor (cell s.disp k) (decide (s.spriteHits x y n k % 2 = 1))) ∧
    Frame (onlyReg 0xF) [.disp] s t := by
  obtain ⟨t', ht', hcell, -, -, hframe⟩ := drawXorsTheSpriteAndDetectsCollision s x y n hrange
  obtain rfl : t' = t := by simpa [ht'] using h
  exact ⟨hcell, hframe⟩

/-- Settles O47: a draw out of range halts both times; one in range turns each cell over by the same
parity both times. -/
theorem drawingTwiceRestoresTheDisplay : Obligations.DrawingTwiceRestoresTheDisplay := by
  intro s t u x y n hx hy hst htu
  rcases execDrw_cases hst with ⟨r, hfail, rfl⟩ | ⟨hpass, -⟩
  · have hu : exec (.drw x y n) (s.raise r) = .next ((s.raise r).raise r) :=
      exec_of_firstFailure (.drw x y n) hfail
    obtain rfl : (s.raise r).raise r = u := by simpa [hu] using htu
    rfl
  · have hrange : ∀ r < n.toNat, s.inRange (s.I.toNat + r) := fun r hr =>
      checkRead_eq_none.1 (firstFailure_eq_none.1 hpass r hr)
    obtain ⟨hfirst, hframe⟩ := exec_drw_of_inRange hst hrange
    have hI : t.I = s.I := hframe.2 .I (by simp)
    have hcfg : t.cfg = s.cfg := hframe.2 .cfg (by simp)
    have hrange' : ∀ r < n.toNat, t.inRange (t.I.toNat + r) := by
      simpa only [State.inRange, hI, hcfg] using hrange
    obtain ⟨hsecond, -⟩ := exec_drw_of_inRange htu hrange'
    refine display_ext fun k hk => ?_
    rw [hsecond k hk, hfirst k hk, hframe.spriteHits_eq hx hy, Bool.xor_assoc, Bool.xor_self,
      Bool.xor_false]

end Sys2Proof.Machine
end

section
/-! The keys-and-timers family (44_keys_timers.md): SKP, SKNP, the key wait and the timer transfers. Each
key instruction is first given by an equation for its one query, over the free answer of that draw (log 4). -/

namespace Sys2Proof.Machine

/-! ### The key query (R120) -/

theorem byte_not_le_of_lt_toNat {v : Byte} (h : 0xF < v.toNat) : ¬ v ≤ 0xF :=
  fun hle => Nat.not_le.2 h (BitVec.le_def.1 hle)

theorem keyIndex_of_notDown {p : Params} {v : Byte} (hv : 0xF < v.toNat) (h : p.keyOob = .notDown) :
    keyIndex p v = .notAsked := by
  simp only [keyIndex, if_neg (byte_not_le_of_lt_toNat hv), h]

theorem keyIndex_of_fault {p : Params} {v : Byte} (hv : 0xF < v.toNat) (h : p.keyOob = .fault) :
    keyIndex p v = .halt (.fault (.keyIndexOutOfRange v)) := by
  simp only [keyIndex, if_neg (byte_not_le_of_lt_toNat hv), h]

/-- The key asked for is the one of the low nibble. -/
theorem keyDown_setWidth (keys : BitVec 16) (v : Byte) :
    keyDown keys (v.setWidth 4) = keys.getLsbD (v.toNat % 16) :=
  congrArg keys.getLsbD (BitVec.toNat_setWidth 4 v)

/-! ### The shared part of SKP and SKNP, by the query it makes -/

theorem skipOnKey_of_ask {x : Nibble} {s : State}
    (h : (s.reg x).toNat ≤ 0xF ∨ s.cfg.keyOob = .lowNibble) (wanted : Bool) :
    skipOnKey x wanted s = .next
      (s.drawn.skipIf ((Config.keysDown s.draws).getLsbD ((s.reg x).toNat % 16) == wanted)) := by
  simp only [skipOnKey, keyIndex_of_ask h, keyDown_setWidth, State.keysDown]

theorem skipOnKey_of_notDown {x : Nibble} {s : State} (hv : 0xF < (s.reg x).toNat)
    (h : s.cfg.keyOob = .notDown) (wanted : Bool) :
    skipOnKey x wanted s = .next (s.skipIf (false == wanted)) := by
  simp only [skipOnKey, keyIndex_of_notDown hv h]

theorem skipOnKey_of_fault {x : Nibble} {s : State} (hv : 0xF < (s.reg x).toNat)
    (h : s.cfg.keyOob = .fault) (wanted : Bool) :
    skipOnKey x wanted s = .next (s.raise (.fault (.keyIndexOutOfRange (s.reg x)))) := by
  simp only [skipOnKey, keyIndex_of_fault hv h]

theorem State.skipIf_draws (s : State) (taken : Bool) : (s.skipIf taken).draws = s.draws := by
  rw [State.skipIf_eq, State.setPc_draws]

/-- A query and a skip: what SKP and SKNP write (R121, R122). -/
theorem Frame.drawn_skipIf (s : State) (taken : Bool) :
    Frame noReg [.pc, .draws] s (s.drawn.skipIf taken) :=
  ((Frame.drawn s).weaken (fun _ h => h) (by simp)).trans
    ((Frame.skipIf _ taken).weaken (fun _ h => h) (by simp))

/-- Settles O48, by what `P_KEY_OOB` makes of the query. -/
theorem skipIfKeyDown : Obligations.SkipIfKeyDown := by
  intro s x
  refine ⟨fun h => ⟨_, skipOnKey_of_ask h true, ?_, State.skipIf_draws _ _, .drawn_skipIf s _⟩,
    fun hv h => skipOnKey_of_notDown hv h true, fun hv h => skipOnKey_of_fault hv h true⟩
  rw [beq_true, State.skipIf_eq, State.setPc_pc, State.drawn_pc]

/-- Settles O49, by what `P_KEY_OOB` makes of the query: it is SKP's, with the answer "not down"
wanted. -/
theorem skipIfKeyNotDown : Obligations.SkipIfKeyNotDown := by
  intro s x
  refine ⟨fun h => ⟨_, skipOnKey_of_ask h false, ?_, State.skipIf_draws _ _, .drawn_skipIf s _⟩,
    fun hv h => skipOnKey_of_notDown hv h false, fun hv h => skipOnKey_of_fault hv h false⟩
  rw [beq_false, State.skipIf_eq, State.setPc_pc, State.drawn_pc]
  cases (Config.keysDown s.draws).getLsbD ((s.reg x).toNat % 16) with
  | false => rfl
  | true => rfl

/-! ### The key wait (R123) -/

/-- There is no lowest key exactly when none of the sixteen is down (R147). -/
theorem lowestKey_eq_none {keys : BitVec 16} :
    lowestKey keys = none ↔ ∀ k < 16, keys.getLsbD k = false := by
  simp [lowestKey]

/-- The lowest key is down and every key below it is not (R147). -/
theorem lowestKey_eq_some {keys : BitVec 16} {n : Nibble} (h : lowestKey keys = some n) :
    keys.getLsbD n.toNat = true ∧ ∀ j < n.toNat, keys.getLsbD j = false := by
  obtain ⟨k, hfind, rfl⟩ := Option.map_eq_some_iff.1 h
  obtain ⟨hdown, hmem, hlow⟩ := List.find?_range_eq_some.1 hfind
  have hk : (BitVec.ofNat 4 k).toNat = k := Nat.mod_eq_of_lt (List.mem_range.1 hmem)
  rw [hk]
  exact ⟨hdown, fun j hj => by simpa using hlow j hj⟩

/-- A draw and the rewind: what a key wait with no key down writes. -/
theorem Frame.drawn_rewind (s : State) : Frame noReg [.pc, .draws] s s.drawn.rewind :=
  ((Frame.drawn s).weaken (fun _ h => h) (by simp)).trans
    ((Frame.setPc _ _).weaken (fun _ h => h) (by simp))

/-- The key wait on the free answer of its draw (R123, log 4). -/
theorem exec_ldKey (s : State) (x : Nibble) :
    exec (.ldKey x) s = .next (s.drawn.keyAnswer x (lowestKey (Config.keysDown s.draws))) := rfl

/-- Settles O50, by whether there is a lowest key down. -/
theorem keyWaitTakesLowestKeyOrRewinds : Obligations.KeyWaitTakesLowestKeyOrRewinds := by
  intro s x
  rw [exec_ldKey]
  cases h : lowestKey (Config.keysDown s.draws) with
  | none => exact ⟨_, rfl, rfl, .inl ⟨lowestKey_eq_none.1 h, rfl, .drawn_rewind s⟩⟩
  | some n =>
    obtain ⟨hdown, hlow⟩ := lowestKey_eq_some h
    refine ⟨_, rfl, rfl, .inr ⟨n.toNat, n.isLt, hdown, hlow, ?_, .drawn_setReg s x _⟩⟩
    exact (congrArg BitVec.toNat (s.drawn.setReg_reg_self x _)).trans
      (BitVec.toNat_setWidth_of_le (by decide))

/-! ### The timer transfers (R124 to R126) -/

/-- Settles O51: each transfer is one write. -/
theorem timerLoadsMoveTheValue : Obligations.TimerLoadsMoveTheValue := fun s x =>
  ⟨⟨_, rfl, s.setReg_reg_self x s.DT, .setReg s x s.DT⟩,
    ⟨_, rfl, s.setDT_DT (s.reg x), .setDT s (s.reg x)⟩,
    ⟨_, rfl, s.setST_ST (s.reg x), .setST s (s.reg x)⟩⟩

end Sys2Proof.Machine
end

section
/-! The index-and-memory family (45_index_memory.md): the three index loads, BCD, and the two block
transfers. Each memory instruction is first given by an equation for its accepted case; the laws of the
block writes and block reads then give every byte and every register. -/

namespace Sys2Proof.Machine

/-! ### What the index loads put in `I` -/

/-- ADD I, Vx modulo 2^16 (R128). -/
theorem add_zext16_toNat (a : Word) (b : Byte) :
    (a + zext16 b).toNat = (a.toNat + b.toNat) % 65536 := by
  rw [BitVec.toNat_add, zext16, BitVec.toNat_setWidth_of_le (by decide)]

/-- The digit of Fx29, by the setting of `P_FONT_DIGIT` (R129). -/
theorem fontDigit_eq_ite (p : Params) (v : Byte) :
    fontDigit p v = if p.fontDigit = .full then v.toNat else v.toNat % 16 := by
  cases h : p.fontDigit <;> simp [fontDigit, h]

theorem fontDigit_le (p : Params) (v : Byte) : fontDigit p v ≤ v.toNat := by
  rw [fontDigit_eq_ite]
  split
  · exact le_rfl
  · exact Nat.mod_le _ _

/-- Five times a digit fits in 16 bits, so nothing is reduced (R129). -/
theorem glyphAddress_toNat (p : Params) (v : Byte) :
    (BitVec.ofNat 16 (5 * fontDigit p v)).toNat = 5 * fontDigit p v := by
  have hle := fontDigit_le p v
  rw [BitVec.toNat_ofNat]
  omega

/-- Settles O52. -/
theorem indexLoadAndAdd : Obligations.IndexLoadAndAdd := fun s x nnn =>
  ⟨⟨_, rfl, address_toNat nnn, .setI s _⟩, ⟨_, rfl, add_zext16_toNat s.I (s.reg x), .setI s _⟩⟩

/-- Settles O53. -/
theorem fontGlyphAddress : Obligations.FontGlyphAddress := by
  intro s x
  refine ⟨_, rfl, ?_, .setI s _⟩
  rw [← fontDigit_eq_ite]
  exact glyphAddress_toNat s.cfg (s.reg x)

/-! ### The accepted case of each memory instruction -/

theorem exec_ldB_of_accepted {s : State} (x : Nibble) (h : s.StoreAccepted 3) :
    exec (.ldB x) s = .next (s.writeBytes s.I.toNat (bcdDigits (s.reg x))) :=
  storeBlock_of_ok (bytes := bcdDigits (s.reg x)) (after := id) h

theorem exec_storeRegs_of_accepted {s : State} {x : Nibble} (h : s.StoreAccepted (x.toNat + 1)) :
    exec (.storeRegs x) s =
      .next ((s.writeBytes s.I.toNat (s.regsUpTo x)).setI (indexAfter s.cfg s.I x)) := by
  rw [← s.regsUpTo_length x] at h
  exact storeBlock_of_ok (after := fun t => t.setI (indexAfter s.cfg s.I x)) h

theorem exec_loadRegs_of_inRange {s : State} {x : Nibble}
    (h : ∀ k < x.toNat + 1, s.inRange (s.I.toNat + k)) :
    exec (.loadRegs x) s = .next ((s.setRegsFrom 0 (s.readBytes s.I.toNat (x.toNat + 1))).setI
      (indexAfter s.cfg s.I x)) := by
  rw [exec, execLoadRegs, firstFailure_eq_none.2 fun k hk => checkRead_eq_none.2 (h k hk)]

/-! ### BCD (R130) -/

/-- The bytes of BCD are three decimal digits that give the value back, hundreds first. -/
theorem bcdDigits_cases (v : Byte) : ∃ h d o : Byte, bcdDigits v = [h, d, o] ∧
    h.toNat ≤ 2 ∧ d.toNat ≤ 9 ∧ o.toNat ≤ 9 ∧
    100 * h.toNat + 10 * d.toNat + o.toNat = v.toNat := by
  refine ⟨_, _, _, rfl, ?_⟩
  simp only [BitVec.toNat_ofNat]
  omega

/-- Settles O54: the three bytes stored are the digits, each read back at its own address. -/
theorem bcdStoresTheThreeDigits : Obligations.BcdStoresTheThreeDigits := by
  intro s x haccepted
  obtain ⟨h, d, o, hbytes, hh, hd, ho, hsum⟩ := bcdDigits_cases (s.reg x)
  have hexec := exec_ldB_of_accepted x haccepted
  rw [hbytes] at hexec
  have hread := s.writeBytes_byteAt s.I.toNat [h, d, o] (by simp)
  exact ⟨_, h, d, o, hexec, hread 0 (by simp), hread 1 (by simp), hread 2 (by simp),
    hh, hd, ho, hsum, s.writeBytes_byteAt_other _ [h, d, o], .writeBytes s _ _⟩

/-! ### The block store (R132) -/

/-- The address of `V[k]` in the block holds `V[k]` once the block is written. -/
theorem State.writeBytes_regsUpTo_byteAt (s : State) (base : Nat) {x k : Nibble}
    (hk : k.toNat ≤ x.toNat) :
    (s.writeBytes base (s.regsUpTo x)).byteAt (effective (base + k.toNat)) = s.reg k := by
  have hlen := s.regsUpTo_length x
  rw [s.writeBytes_byteAt base _ (by omega) k.toNat (by omega), State.regsUpTo_getElem,
    BitVec.ofNat_toNat, BitVec.setWidth_eq]

/-- A block write and a load of `I`: what Fx55 writes (R131, R132). -/
theorem Frame.writeBytes_setI (s : State) (base : Nat) (bytes : List Byte) (a : Word) :
    Frame noReg [.mem, .I] s ((s.writeBytes base bytes).setI a) :=
  ((Frame.writeBytes s base bytes).weaken (fun _ h => h) (by simp)).trans
    ((Frame.setI _ a).weaken (fun _ h => h) (by simp))

/-- Settles O55: the bytes written are the registers in order. -/
theorem blockStoreWritesTheRegisters : Obligations.BlockStoreWritesTheRegisters := by
  intro s x haccepted
  have hstore : s.StoreAccepted (x.toNat + 1) := fun k hk => haccepted k (Nat.le_of_lt_succ hk)
  refine ⟨_, exec_storeRegs_of_accepted hstore,
    fun k hk => s.writeBytes_regsUpTo_byteAt s.I.toNat hk, fun a ha => ?_,
    indexAfter_toNat s.cfg s.I x, .writeBytes_setI s _ _ _⟩
  refine s.writeBytes_byteAt_other _ _ a fun k hk => ha k ?_
  rw [State.regsUpTo_length] at hk
  exact Nat.le_of_lt_succ hk

/-! ### The block load (R133) -/

/-- The registers after a block load that ends at `V[x]`: those through `V[x]` hold the block's bytes,
those above are unchanged. -/
theorem State.loadBlock_reg (s : State) (base : Nat) (x r : Nibble) :
    (s.setRegsFrom 0 (s.readBytes base (x.toNat + 1))).reg r =
      if r.toNat ≤ x.toNat then s.byteAt (effective (base + r.toNat)) else s.reg r := by
  have hlen := s.readBytes_length base (x.toNat + 1)
  rw [State.setRegsFrom_reg _ _ _ (by omega)]
  by_cases hr : r.toNat ≤ x.toNat
  · rw [dif_pos (by omega), if_pos hr, State.readBytes_getElem]
    rfl
  · rw [dif_neg (by omega), if_neg hr]

/-- A block load that ends at `V[x]` writes no register above it (R133). -/
theorem Frame.loadBlock (s : State) (base : Nat) (x : Nibble) :
    Frame (regsThrough x) [] s (s.setRegsFrom 0 (s.readBytes base (x.toNat + 1))) := by
  refine ⟨fun r hr => (s.loadBlock_reg base x r).trans (if_neg hr), fun f _ => ?_⟩
  obtain ⟨v, hv⟩ := s.setRegsFrom_eq 0 (s.readBytes base (x.toNat + 1))
  rw [hv]
  cases f <;> simp [Field.Same, State.byteAt]

/-- A block load and a load of `I`: what Fx65 writes (R131, R133). -/
theorem Frame.loadBlock_setI (s : State) (base : Nat) (x : Nibble) (a : Word) :
    Frame (regsThrough x) [.I] s
      ((s.setRegsFrom 0 (s.readBytes base (x.toNat + 1))).setI a) :=
  ((Frame.loadBlock s base x).weaken (fun _ h => h) (by simp)).trans
    ((Frame.setI _ a).weaken (fun _ h => h.elim) (fun _ h => h))

/-- Settles O56: the bytes read become the registers in order. -/
theorem blockLoadReadsTheRegisters : Obligations.BlockLoadReadsTheRegisters := by
  intro s x hrange
  refine ⟨_, exec_loadRegs_of_inRange fun k hk => hrange k (Nat.le_of_lt_succ hk), fun k hk => ?_,
    indexAfter_toNat s.cfg s.I x, .loadBlock_setI s _ x _⟩
  exact (s.loadBlock_reg s.I.toNat x k).trans (if_pos hk)

end Sys2Proof.Machine
end

section
/-! The exceptions family (60_exceptions.md): what a halting step leaves of the state (R135, R140), that
nothing leaves a halt (R141), and the host's timer tick (R144). -/

namespace Sys2Proof.Machine

/-! ### No check fails with the normal halt -/

theorem checkRead_ne_haltedNormally (p : Params) (a : Nat) : checkRead p a ≠ some .haltedNormally := by
  intro h
  obtain ⟨b, hb⟩ := checkRead_kind h
  cases hb

theorem checkWrite_ne_haltedNormally (p : Params) (a : Nat) :
    checkWrite p a ≠ some .haltedNormally := by
  intro h
  unfold checkWrite at h
  split at h
  · next hread =>
    cases h
    exact checkRead_ne_haltedNormally p a hread
  · split at h <;> cases h

/-- A block's checks report what one of its addresses failed with, so an abnormal halt. -/
theorem firstFailure_ne_haltedNormally {check : Nat → Option HaltResult}
    (hcheck : ∀ a, check a ≠ some .haltedNormally) {base n : Nat} {r : HaltResult}
    (h : firstFailure check base n = some r) : r ≠ .haltedNormally := by
  rintro rfl
  obtain ⟨k, -, hk⟩ := firstFailure_cases h
  exact hcheck _ hk

/-- A key query that halts reports the index out of range (R120). -/
theorem keyIndex_halt_ne_haltedNormally {p : Params} {v : Byte} {r : HaltResult}
    (h : keyIndex p v = .halt r) : r ≠ .haltedNormally := by
  unfold keyIndex at h
  split at h
  · cases h
  · split at h <;> cases h
    nofun

/-! ### What a halting instruction does -/

/-- SYS halts under `P_SYS = unknown`, or does nothing (R91). -/
theorem execSys_cases {nnn : Addr12} {s t : State} (h : execSys nnn s = .next t) :
    (s.cfg.sys = .unknown ∧ t = s.raise (.unknownOpcode (encode (.sys nnn)))) ∨
    (s.cfg.sys = .nop ∧ t = s) := by
  unfold execSys at h
  split at h <;> injection h with h
  · next hsys => exact .inl ⟨hsys, h.symm⟩
  · next hsys => exact .inr ⟨hsys, h.symm⟩

theorem State.skipIf_phase (s : State) (taken : Bool) : (s.skipIf taken).phase = s.phase := by
  rw [State.skipIf_eq, State.setPc_phase]

theorem State.keyAnswer_phase (s : State) (x : Nibble) (k : Option Nibble) :
    (s.keyAnswer x k).phase = s.phase := by
  cases k <;> rfl

/-- `t` is `s` with an abnormal halt raised in it: any result of R134 but the sentinel's. -/
def State.RaisesAbnormally (s t : State) : Prop := ∃ r, r ≠ .haltedNormally ∧ t = s.raise r

theorem skipOnKey_phase {x : Nibble} {wanted : Bool} {s t : State}
    (h : skipOnKey x wanted s = .next t) : t.phase = s.phase ∨ s.RaisesAbnormally t := by
  rcases skipOnKey_cases h with ⟨r, hr, rfl⟩ | ⟨-, rfl⟩ | ⟨k, -, rfl⟩
  · exact .inr ⟨r, keyIndex_halt_ne_haltedNormally hr, rfl⟩
  · exact .inl (s.skipIf_phase _)
  · exact .inl (s.drawn.skipIf_phase _)

/-- An instruction keeps the phase, or raises an abnormal halt and does nothing else: the normal halt is
the sentinel's, which is no instruction (R80, R135). -/
theorem exec_phase {i : Instr} {s t : State} (h : exec i s = .next t) :
    t.phase = s.phase ∨ s.RaisesAbnormally t := by
  cases i with
  | sys nnn =>
    rcases execSys_cases h with ⟨-, rfl⟩ | ⟨-, rfl⟩
    · exact .inr ⟨.unknownOpcode _, nofun, rfl⟩
    · exact .inl rfl
  | ret =>
    rcases execRet_cases h with ⟨-, rfl⟩ | ⟨-, rfl⟩
    · exact .inr ⟨.stackUnderflow, nofun, rfl⟩
    · exact .inl rfl
  | call nnn =>
    rcases execCall_cases h with ⟨-, rfl⟩ | ⟨-, rfl⟩
    · exact .inr ⟨.stackOverflow, nofun, rfl⟩
    · exact .inl rfl
  | skp x | sknp x => exact skipOnKey_phase h
  | drw x y n =>
    rcases execDrw_cases h with ⟨r, hr, rfl⟩ | ⟨-, d, b, rfl⟩
    · exact .inr ⟨r, firstFailure_ne_haltedNormally (checkRead_ne_haltedNormally _) hr, rfl⟩
    · exact .inl rfl
  | ldB x =>
    rcases storeBlock_cases h with ⟨r, hr, rfl⟩ | ⟨-, rfl⟩
    · exact .inr ⟨r, firstFailure_ne_haltedNormally (checkWrite_ne_haltedNormally _) hr, rfl⟩
    · exact .inl ((Frame.writeBytes s _ _).2 .phase (by simp))
  | storeRegs x =>
    rcases execStoreRegs_cases h with ⟨r, hr, rfl⟩ | ⟨-, rfl⟩
    · exact .inr ⟨r, firstFailure_ne_haltedNormally (checkWrite_ne_haltedNormally _) hr, rfl⟩
    · exact .inl ((Frame.writeBytes_setI s _ _ _).2 .phase (by simp))
  | loadRegs x =>
    rcases execLoadRegs_cases h with ⟨r, hr, rfl⟩ | ⟨-, rfl⟩
    · exact .inr ⟨r, firstFailure_ne_haltedNormally (checkRead_ne_haltedNormally _) hr, rfl⟩
    · exact .inl ((Frame.loadBlock_setI s _ x _).2 .phase (by simp))
  | seImm | sneImm | seReg | sneReg => injection h with h; subst h; exact .inl (s.skipIf_phase _)
  | ldKey x => injection h with h; subst h; exact .inl (s.drawn.keyAnswer_phase x _)
  | cls | jp | jpV0 | ldImm | addImm | ldReg | or | and | xor | addReg | sub | subn | shr | shl | rnd
  | ldI | addI | ldF | ldDT | setDT | setST => injection h with h; subst h; exact .inl rfl

/-- An instruction that halts a running core does nothing but raise the halt (R140). -/
theorem exec_halt {i : Instr} {s t : State} {r : HaltResult} (hrun : s.phase = .running)
    (h : exec i s = .next t) (hhalt : t.phase = .halted r) :
    t = s.raise r ∧ r ≠ .haltedNormally := by
  rcases exec_phase h with hsame | ⟨q, hq, rfl⟩
  · rw [hsame, hrun] at hhalt
    cases hhalt
  · cases hhalt
    exact ⟨rfl, hq⟩

/-! ### What a halting step does -/

/-- A step that halts a running core raises the halt in place, at the sentinel or a failed fetch, or
with `pc` advanced, at an unknown word or in an instruction (R79 to R84, R140). -/
theorem step_halt_cases {s t : State} {r : HaltResult} (hrun : s.phase = .running)
    (h : step s = .next t) (hhalt : t.phase = .halted r) :
    ((r = .haltedNormally ∨ ∃ a, r = .fault (.memoryOutOfRange a)) ∧ t = s.raise r) ∨
    (r ≠ .haltedNormally ∧ t = (s.setPc (s.pc + 2)).raise r) := by
  rcases step_cases h with ⟨q, hq, -⟩ | ⟨-, q, hfetch, rfl⟩ | ⟨-, -, rfl⟩ | ⟨-, w, -, -, rfl⟩ |
    ⟨-, w, i, -, -, hexec⟩
  · rw [hrun] at hq
    cases hq
  · cases hhalt
    exact .inl ⟨.inr (State.fetch_error hfetch), rfl⟩
  · cases hhalt
    exact .inl ⟨.inl rfl, rfl⟩
  · cases hhalt
    exact .inr ⟨nofun, rfl⟩
  · obtain ⟨ht, hr⟩ := exec_halt (s := s.setPc (s.pc + 2)) hrun hexec hhalt
    exact .inr ⟨hr, ht⟩

/-- Settles O14, by where the halt was raised. -/
theorem haltsArePrecise : Obligations.HaltsArePrecise := by
  intro s t r hrun h hhalt
  rcases step_halt_cases hrun h hhalt with ⟨hr, rfl⟩ | ⟨hr, rfl⟩
  · refine ⟨rfl, fun _ => rfl, fun hnormal hrange => ?_, .inl rfl⟩
    rcases hr with hr | ⟨a, hr⟩
    · exact absurd hr hnormal
    · exact absurd hr (hrange a)
  · exact ⟨rfl, fun hnormal => absurd hnormal hr, fun _ _ => rfl, .inr rfl⟩

/-! ### Nothing leaves a halt -/

/-- `t` is `s` but for the two timers. -/
def State.SameButTimers (s t : State) : Prop := t = { s with DT := t.DT, ST := t.ST }

theorem State.SameButTimers.trans {s t u : State} (hst : s.SameButTimers t)
    (htu : t.SameButTimers u) : s.SameButTimers u := by
  unfold State.SameButTimers at *
  rw [htu, hst]

theorem State.SameButTimers.phase {s t : State} (h : s.SameButTimers t) : t.phase = s.phase := by
  rw [h]

/-- A move on a halted core is the host's tick of its timers, or changes nothing (R78, R141, R144). -/
theorem applyMove_of_halted {m : Move} {s t : State} {r : HaltResult} (hs : s.phase = .halted r)
    (h : applyMove m s = .next t) : s.SameButTimers t := by
  cases m with
  | step =>
    rw [applyMove, step_of_halted hs] at h
    injection h with h; subst h; rfl
  | tick | redraw | audio => injection h with h; subst h; rfl

/-- Settles O15, by induction on the moves: the core stays halted, so every move is one on a halted
core. -/
theorem noMoveLeavesAHalt : Obligations.NoMoveLeavesAHalt := fun _ s _ _ hs h =>
  runMoves_keeps (P := s.SameButTimers)
    (fun _ _ _ hm hu => hu.trans (applyMove_of_halted (hu.phase.trans hs) hm)) h rfl

/-! ### The timer tick (R144) -/

theorem tickTimer_toNat (b : Byte) :
    (tickTimer b).toNat = if b.toNat > 0 then b.toNat - 1 else 0 := by
  unfold tickTimer
  by_cases hb : b = 0
  · simp [hb]
  · have hpos : b.toNat > 0 := by bv_omega
    rw [if_neg hb, if_pos hpos]
    bv_omega

theorem Frame.tick (s : State) : Frame noReg [.DT, .ST] s s.tick :=
  ⟨fun r _ => s.tick_reg r, fun f hf => by cases f <;> simp [Field.Same] at hf ⊢⟩

/-- Settles O58. -/
theorem tickDecrementsNonzeroTimers : Obligations.TickDecrementsNonzeroTimers := fun s =>
  ⟨tickTimer_toNat s.DT, tickTimer_toNat s.ST, .tick s⟩

end Sys2Proof.Machine
end

section
/-! The reset and hazards family (70_reset_and_hazards.md): the program load, all or nothing (R158, R159),
and the first step of an image with nothing to run (R161). An accepted image ends at 0xFFF, so no address
of the load is reduced; the laws of the block writes then give every byte. -/

namespace Sys2Proof.Machine

/-! ### The load (R158, R159) -/

theorem State.load_of_le (s : State) {image : List Byte} (h : image.length ≤ 3584) :
    s.load image = .ok (s.writeBytes 0x200 image) :=
  if_neg (Nat.not_lt.2 h)

theorem State.load_of_lt (s : State) {image : List Byte} (h : 3584 < image.length) :
    s.load image = .error (.tooLong image.length) :=
  if_pos h

/-- A load that succeeds was of an accepted image, and wrote it at 0x200. -/
theorem State.load_ok {s t : State} {image : List Byte} (h : s.load image = .ok t) :
    image.length ≤ 3584 ∧ t = s.writeBytes 0x200 image := by
  rcases Nat.lt_or_ge 3584 image.length with hlong | hfits
  · rw [s.load_of_lt hlong] at h
    cases h
  · rw [s.load_of_le hfits] at h
    cases h
    exact ⟨hfits, rfl⟩

/-- The load area, 0x200 to 0xFFF, is the top of memory: no address in it is reduced. -/
theorem effective_loadAddress_add {k : Nat} (h : k < 3584) : effective (0x200 + k) = 0x200 + k :=
  Nat.mod_eq_of_lt (by omega)

/-- An accepted image is read back from 0x200 on. -/
theorem State.byteAt_of_loaded (s : State) {image : List Byte} (hfits : image.length ≤ 3584)
    {k : Nat} (hk : k < image.length) :
    (s.writeBytes 0x200 image).byteAt (0x200 + k) = image[k] := by
  rw [← effective_loadAddress_add (hk.trans_le hfits)]
  exact s.writeBytes_byteAt 0x200 image (by omega) k hk

/-- The bytes below 0x200 and past the end of an accepted image are as before the load. -/
theorem State.byteAt_of_not_loaded (s : State) {image : List Byte} (hfits : image.length ≤ 3584)
    {a : Nat} (ha : a < 0x200 ∨ 0x200 + image.length ≤ a) :
    (s.writeBytes 0x200 image).byteAt a = s.byteAt a := by
  refine s.writeBytes_byteAt_other 0x200 image a fun k hk => ?_
  rw [effective_loadAddress_add (hk.trans_le hfits)]
  omega

/-- Settles O59, by whether the image fits. -/
theorem loadIsAllOrNothing : Obligations.LoadIsAllOrNothing := by
  refine fun s image => ⟨fun hfits => ?_, fun hlong => ⟨_, s.load_of_lt hlong⟩⟩
  exact ⟨_, s.load_of_le hfits, fun _ hi => s.byteAt_of_loaded hfits hi,
    fun _ ha => s.byteAt_of_not_loaded hfits ha, .writeBytes s _ image⟩

/-! ### The first step (R160, R161) -/

/-- After a boot the load area holds the image, and zeros after it (R156, R158). -/
theorem boot_byteAt {cfg : Params} {image : List Byte} {s : State} (h : boot cfg image = .ok s)
    (k : Nat) : s.byteAt (0x200 + k) = image.getD k 0 := by
  obtain ⟨hfits, rfl⟩ := State.load_ok h
  by_cases hk : k < image.length
  · rw [State.byteAt_of_loaded _ hfits hk, List.getD_eq_getElem _ _ hk]
  · rw [State.byteAt_of_not_loaded _ hfits (.inr (by omega)), List.getD_eq_default _ _ (by omega)]
    exact initialByte_of_le cfg.font (by omega)

/-- A boot leaves the core running at the image's first byte (R38, R158). -/
theorem boot_running_at_loadAddress {cfg : Params} {image : List Byte} {s : State}
    (h : boot cfg image = .ok s) : s.phase = .running ∧ s.pc = 0x200 := by
  obtain ⟨-, rfl⟩ := State.load_ok h
  obtain ⟨m, hm⟩ := (State.construct cfg).writeBytes_eq 0x200 image
  rw [hm]
  exact ⟨rfl, rfl⟩

/-- Settles O60: in either case the first two bytes are zeros, the sentinel (R80). -/
theorem imageOfZeroWordHaltsAtTheFirstStep : Obligations.ImageOfZeroWordHaltsAtTheFirstStep := by
  intro cfg image s h himage
  obtain ⟨hrun, hpc⟩ := boot_running_at_loadAddress h
  have hpcNat : s.pc.toNat = 0x200 := by rw [hpc]; rfl
  have hzero : image.getD 0 0 = 0 ∧ image.getD 1 0 = 0 := by
    rcases himage with rfl | ⟨rest, rfl⟩ <;> exact ⟨rfl, rfl⟩
  have hhi : s.byteAt 0x200 = 0 := (boot_byteAt h 0).trans hzero.1
  have hlo : s.byteAt 0x201 = 0 := (boot_byteAt h 1).trans hzero.2
  refine sentinelHaltsWithoutMutation s hrun (.inl ?_) (.inl ?_) ?_
  · omega
  · omega
  · rw [hpcNat]
    change s.byteAt 0x200 ++ s.byteAt 0x201 = (0x0000 : Word)
    rw [hhi, hlo]
    rfl

end Sys2Proof.Machine
end
